-- ==== Sys2Proof/Word.lean ====
section
/-! DEFINITION. The bit-vector widths and value types of `fp_format_converter` (spec/00_scope.md R6, R8;
spec/10_state.md R20 to R23, R29). Bit 0 of every vector is its least significant bit. -/

namespace Sys2Proof

/-- One byte of a serialized buffer (20_memory.md R40: a byte is 8 bits). -/
abbrev Byte := BitVec 8

/-- A transaction word `TW[144:0] = op ‖ x_in ‖ d_in` (30_encoding.md R60). -/
abbrev TxWord := BitVec 145

/-- The value on an 80-bit port `x_in` or `x_out` (10_state.md R20, R21). -/
abbrev XPort := BitVec 80

/-- The value on a 64-bit port `d_in` or `d_out`, an IEEE-754 double (10_state.md R20, R23). -/
abbrev DPort := BitVec 64

/-- The source's data type: `signExponent` (bit 15 the sign, bits 14 to 0 the exponent biased by 16383)
and `fraction` (binary point after bit 63) (10_state.md R22). Every pattern is a value (R31). -/
structure ExtendedValue where
  signExponent : BitVec 16
  fraction     : BitVec 64
  deriving DecidableEq, Repr

/-- The five classes of an operand (00_scope.md R14, R16; 10_state.md R29). Codes 5, 6 and 7 are never
driven, so the type has five values (93_implementation_defined.md U11). -/
inductive Cls where
  | zero
  | subnormal
  | normal
  | infinity
  | nan
  deriving DecidableEq, Repr

/-- The two byte orders of the serialized form (20_memory.md R40); the caller names one in each call. -/
inductive ByteOrder where
  | big
  | little
  deriving DecidableEq, Repr

end Sys2Proof
end

