-- ==== Sys2Proof/Config.lean ====
section
/-! DEFINITION. The two open parameters of an instance of the block (00_scope.md R7; 92_eei_decisions.md
D5, D16), constants fixed when an instance is made (70_reset_and_hazards.md R161), and the environment's
choice of an endless run (R169). The model leaves each a constant without a body, so a proof holds for every
legal value. -/

namespace Sys2Proof.Config

/-- The default the spec gives `D_NAN_MANT` (R7, D5): only mantissa bit 51 set. -/
def dNanMantDefault : BitVec 52 := 0x8000000000000#52

/-- The integrator's choice of the NaN mantissa: any 52-bit value; nothing in Lean can evaluate it. -/
opaque nanMantChoice : BitVec 52

/-- `D_NAN_MANT` (R7): a 52-bit vector that is not zero and otherwise free. The one illegal choice, zero,
stands for the spec's default, so that this ranges over exactly the legal values. -/
def dNanMant : BitVec 52 :=
  if nanMantChoice = 0#52 then dNanMantDefault else nanMantChoice

/-- The choice between the two readings of exponent field 0; nothing in Lean can evaluate it. -/
opaque xSubExpIsStored : Bool

/-- `X_SUB_EXP` (R7, R17): -16383 (the stored exponent 0 as it stands) or -16382 (exponent 0 read as 1).
It has no default; no output depends on it. -/
def xSubExp : Int :=
  if xSubExpIsStored then -16383 else -16382

/-- The transaction words of an endless run, in the order the environment presents them
(70_reset_and_hazards.md R168, R169): any words whatever (notes/assumptions/2.md). -/
opaque environmentWord : Nat → TxWord

end Sys2Proof.Config
end

