-- ==== Sys2Proof/Syntax.lean ====
section
/-! DEFINITION. What stands in the place of an instruction: one transaction of the single format `T`
(30_encoding.md R60), with the fields the opcode table's two rows name (opcode_table.json). -/

namespace Sys2Proof

/-- The two operations (30_encoding.md R61, R65). A transaction sets all three input ports, so each
constructor carries the operand fields its operation reads (R62, R63) and the port it ignores (R67).
There are no immediates, register specifiers, addressing modes or modifiers (R64). -/
inductive Instr where
  /-- `X2D`, `op = 0`: extended to double. Reads `sign`, `exp15`, `fr` of `x_in`; `dIgnored` is `d_in`. -/
  | x2d (sign : BitVec 1) (exp15 : BitVec 15) (fr : BitVec 64) (dIgnored : DPort)
  /-- `D2X`, `op = 1`: double to extended. Reads `dsign`, `dexp`, `dman` of `d_in`; `xIgnored` is `x_in`. -/
  | d2x (dsign : BitVec 1) (dexp : BitVec 11) (dman : BitVec 52) (xIgnored : XPort)
  deriving DecidableEq, Repr

end Sys2Proof
end

