-- ==== Sys2Proof/WellFormed.lean ====
section
/-! DEFINITION. The well-formedness checks. No value of an input port is illegal (10_state.md R31, R32;
30_encoding.md R66), so a transaction needs none; what the spec does constrain is the width of a
transaction word, the size of a codec buffer and the two instance parameters. -/

namespace Sys2Proof

/-- Every transaction is legal: "there is no 'invalid' representation" (00_scope.md R14, 10_state.md R31).
The widths of the fields stand in their types. -/
def Instr.wellFormed : Instr → Bool
  | .x2d _ _ _ _ => true
  | .d2x _ _ _ _ => true

/-- A number is a transaction word when it has no bit above `TW[144]` (30_encoding.md R60, R68). -/
def txWordWf (w : Nat) : Bool := decide (w < 2 ^ 145)

/-- A codec buffer is exactly ten bytes (20_memory.md R40, R46). -/
def bufferWf (buf : List Byte) : Bool := buf.length == 10

/-- `D_NAN_MANT` is not zero (00_scope.md R7). -/
def nanMantWf (m : BitVec 52) : Bool := decide (m ≠ 0#52)

/-- `X_SUB_EXP` is -16383 or -16382 (00_scope.md R7). -/
def xSubExpWf (z : Int) : Bool := decide (z = -16383 ∨ z = -16382)

end Sys2Proof
end

