-- ==== Sys2Proof/Decode.lean ====
section
/-! DEFINITION. The decoder, total on every transaction word (30_encoding.md R61 to R66), and after it the
encoder, both written from the field tables of R60, R62, R63 and R65. -/

namespace Sys2Proof

/-- Why a number is no transaction. -/
inductive DecodeError where
  /-- The number has a bit above `TW[144]`; there is one transaction length (30_encoding.md R68). -/
  | widerThanTransactionWord
  deriving DecidableEq, Repr

/-- The operation field `TW[144]` (R60). -/
def twOp (tw : TxWord) : BitVec 1 := tw.extractLsb' 144 1

/-- The extended operand port `x_in = TW[143:64]` (R60). -/
def twX (tw : TxWord) : XPort := tw.extractLsb' 64 80

/-- The double operand port `d_in = TW[63:0]` (R60). -/
def twD (tw : TxWord) : DPort := tw.extractLsb' 0 64

/-- "A decoder is: `if TW[144] = 0 then X2D else D2X`" (R61), with the operand fields of R62 and R63 cut
out with no arithmetic. It never refuses (R66). -/
def decode (tw : TxWord) : Instr :=
  if twOp tw = 0#1 then
    .x2d (tw.extractLsb' 143 1) (tw.extractLsb' 128 15) (tw.extractLsb' 64 64) (twD tw)
  else
    .d2x (tw.extractLsb' 63 1) (tw.extractLsb' 52 11) (tw.extractLsb' 0 52) (twX tw)

/-- The decoder on a plain number: a number wider than the one format is rejected by name (R68). -/
def decodeWord (w : Nat) : Except DecodeError Instr :=
  if txWordWf w then .ok (decode (BitVec.ofNat 145 w)) else .error .widerThanTransactionWord

/-- The number of the low `nbits` bits of `w`: every bit above them is 0. -/
def tableBits (nbits w : Nat) : Nat := w % 2 ^ nbits

/-- The instruction the decoder reads from a word numbered as the opcode table numbers it (bit 0 is
`TW[0]`, bit 144 is `op`). -/
def decodeTableWord (nbits w : Nat) : Option Instr :=
  match decodeWord (tableBits nbits w) with
  | .ok i => some i
  | .error _ => none

/-- The transaction word of an instruction (R60, R65): the table's rows
`0 s e f d` for `X2D` and `1 x s e m` for `D2X`, most significant field first. -/
def encode : Instr → TxWord
  | .x2d sign exp15 fr dIgnored => 0#1 ++ sign ++ exp15 ++ fr ++ dIgnored
  | .d2x dsign dexp dman xIgnored => 1#1 ++ xIgnored ++ dsign ++ dexp ++ dman

end Sys2Proof
end

