-- ==== Sys2Proof/Machine/State.lean ====
section
/-! DEFINITION. The state of the model. The block itself holds none (10_state.md R24 to R28): what a step
reads and leaves are the values on its six ports (R20), and the environment's further transactions
(70_reset_and_hazards.md R168, R169). -/

namespace Sys2Proof.Machine

/-- One setting of the three input ports (10_state.md R20): a transaction (30_encoding.md R60). -/
structure InPorts where
  /-- `op`, 1 bit: 0 selects `X2D`, 1 selects `D2X`. -/
  op  : BitVec 1
  /-- `x_in`, 80 bits: the extended operand. -/
  xIn : XPort
  /-- `d_in`, 64 bits: the double operand. -/
  dIn : DPort
  deriving DecidableEq, Repr

/-- The values the block drives on its three output ports (10_state.md R20). -/
structure OutPorts where
  /-- `d_out`, 64 bits: the double result. -/
  dOut : DPort
  /-- `x_out`, 80 bits: the extended result. -/
  xOut : XPort
  /-- `cls`, 3 bits: the class of the operand the selected operation read (R29). -/
  cls  : Cls
  deriving DecidableEq, Repr

/-- How the environment's run goes on after the transactions listed in `pending`: "a finite or infinite
sequence of transactions chosen by the environment" (70_reset_and_hazards.md R169). -/
inductive Later where
  /-- The environment presents no further transaction: the run ends. -/
  | ended
  /-- The run never ends: the words `Config.environmentWord` from index `next` on follow, in order. -/
  | endless (next : Nat)
  deriving DecidableEq, Repr

/-- The ports, and what the environment will present next: the listed transactions, oldest first, and after
them none or endlessly many (00_scope.md R12, 70_reset_and_hazards.md R169). `pending` and `later` are the
model's own fields: the environment's choice as plain data (notes/assumptions/2.md). No field is storage of
the block (10_state.md R24). -/
structure State where
  inp     : InPorts
  out     : OutPorts
  pending : List InPorts
  later   : Later
  deriving DecidableEq, Repr

/-- No transaction can fail (60_exceptions.md R140): the block raises no fault, so there is none. -/
inductive Fault where
  deriving DecidableEq, Repr

/-- Why a step answers without a next state. The block refuses nothing (60_exceptions.md R140). -/
inductive Refusal where
  /-- Raised by an arm of `exec` for an operation that has no meaning yet; no arm raises it now. Safe. -/
  | notModelled (mnemonic : String)
  deriving DecidableEq, Repr

/-- There is no reset and nothing to initialise (70_reset_and_hazards.md R160, R161): this is the block
at power-up with all input wires at 0 (DESIGN CHOICE, notes/assumptions/3.md) and no transaction to come
(notes/assumptions/2.md). The output ports are what R110 gives for that setting: an `X2D` of the signed zero `0000:0`. -/
def State.reset : State where
  inp := { op := 0#1, xIn := 0#80, dIn := 0#64 }
  out := { dOut := 0#64, xOut := 0#80, cls := .zero }
  pending := []
  later := .ended

end Sys2Proof.Machine
end

