-- ==== Sys2Proof/Machine/Operands.lean ====
section
/-! DEFINITION. Operand fields and port packings (10_state.md R21 to R23, R33; 00_scope.md R13, R16;
30_encoding.md R60, R62, R63). Nothing is sign-extended, scaled or shifted when a field is cut. -/

namespace Sys2Proof.Machine

/-- `x[79]`, 1 = negative (R21, R62). -/
def xSign (x : XPort) : BitVec 1 := x.extractLsb' 79 1

/-- `x[78:64]`, the exponent biased by 16383 (R21, R62). -/
def xExp15 (x : XPort) : BitVec 15 := x.extractLsb' 64 15

/-- `x[63:0]`, the explicit significand (R21, R62). -/
def xFrac (x : XPort) : BitVec 64 := x.extractLsb' 0 64

/-- `d[63]` (R23, R63). -/
def dSign (d : DPort) : BitVec 1 := d.extractLsb' 63 1

/-- `d[62:52]`, the exponent biased by 1023 (R23, R63). -/
def dExp (d : DPort) : BitVec 11 := d.extractLsb' 52 11

/-- `d[51:0]` (R23, R63). -/
def dMan (d : DPort) : BitVec 52 := d.extractLsb' 0 52

/-- `d[62:0]`: exponent and mantissa of a double without its sign (R94, R124). -/
def dLow (d : DPort) : BitVec 63 := d.extractLsb' 0 63

/-- An 80-bit port from sign, exponent and significand (R21, R106). -/
def packX (sign : BitVec 1) (exp15 : BitVec 15) (fr : BitVec 64) : XPort :=
  sign ++ exp15 ++ fr

/-- An `ExtendedValue` on an 80-bit port: `signExponent` above `fraction` (R21). -/
def portOfValue (v : ExtendedValue) : XPort := v.signExponent ++ v.fraction

/-- The `ExtendedValue` an 80-bit port holds (R21). -/
def valueOfPort (x : XPort) : ExtendedValue where
  signExponent := x.extractLsb' 64 16
  fraction := x.extractLsb' 0 64

/-- The sign a collaborator reads off a port: `x[79]` (R33). -/
def decomposedSign (x : XPort) : Bool := x.getLsbD 79

/-- The unbiased exponent of a normal-class value, binary point after bit 63 (R33). -/
def unbiasedExponent (x : XPort) : Int := (xExp15 x).toNat - 16383

/-- The exponent to pair with the significand read as an integer (R33). -/
def integerExponent (x : XPort) : Int := (xExp15 x).toNat - 16383 - 63

/-- The significand read as an integer (R33). -/
def integerSignificand (x : XPort) : Nat := (xFrac x).toNat

/-- `TW[144:0] = op ‖ x_in ‖ d_in` (R60). -/
def InPorts.word (p : InPorts) : TxWord := p.op ++ p.xIn ++ p.dIn

/-- The setting of the input ports that a transaction word stands for (R60). -/
def InPorts.ofWord (tw : TxWord) : InPorts where
  op := twOp tw
  xIn := twX tw
  dIn := twD tw

/-- The transaction that presents an extended operand for `X2D`, with any value on the ignored port. -/
def x2dOf (x : XPort) (dIgnored : DPort) : Instr := .x2d (xSign x) (xExp15 x) (xFrac x) dIgnored

/-- The transaction that presents a double operand for `D2X`, with any value on the ignored port. -/
def d2xOf (d : DPort) (xIgnored : XPort) : Instr := .d2x (dSign d) (dExp d) (dMan d) xIgnored

end Sys2Proof.Machine
end

