-- ==== Sys2Proof/Machine/Flags.lean ====
section
/-! DEFINITION. The `boundary_case_detector` (40_datapath_blocks.md R80, R81) and the class codes
(10_state.md R29). The block has no flag of any kind (R26, 60_exceptions.md R145): `cls` is a function of
the operand of the present transaction. -/

namespace Sys2Proof.Machine

/-- The code on `cls[2:0]` (10_state.md R29). -/
def clsCode : Cls → BitVec 3
  | .zero => 0#3
  | .subnormal => 1#3
  | .normal => 2#3
  | .infinity => 3#3
  | .nan => 4#3

/-- `exp_max`: the extended exponent field is all ones (R80). -/
def expMaxX (exp15 : BitVec 15) : Bool := exp15 == 0x7FFF#15

/-- `exp_zero` (R80). -/
def expZeroX (exp15 : BitVec 15) : Bool := exp15 == 0#15

/-- `fr_zero` (R80). -/
def frZero (fr : BitVec 64) : Bool := fr == 0#64

/-- `bcd_x`: the class of an extended operand (R80); neither its sign nor its integer bit is an input. -/
def bcdX (exp15 : BitVec 15) (fr : BitVec 64) : Cls :=
  if expMaxX exp15 then (if frZero fr then .infinity else .nan)
  else if expZeroX exp15 then (if frZero fr then .zero else .subnormal)
  else .normal

/-- `dexp_max` (R81). -/
def expMaxD (dexp : BitVec 11) : Bool := dexp == 2047#11

/-- `dexp_zero` (R81). -/
def expZeroD (dexp : BitVec 11) : Bool := dexp == 0#11

/-- `dman_zero` (R81). -/
def manZero (dman : BitVec 52) : Bool := dman == 0#52

/-- `bcd_d`: the class of a double operand (R81). -/
def bcdD (dexp : BitVec 11) (dman : BitVec 52) : Cls :=
  if expMaxD dexp then (if manZero dman then .infinity else .nan)
  else if expZeroD dexp then (if manZero dman then .zero else .subnormal)
  else .normal

end Sys2Proof.Machine
end

