-- ==== Sys2Proof/Machine/Ops.lean ====
section
/-! DEFINITION. The shared operations: `exponent_normalizer`, `significand_rounder` and the field
assembler (40_datapath_blocks.md R84 to R94), and the two moves of a transaction (00_scope.md R12): the
environment presents a setting of the input ports, the block drives its output ports. The block takes no
exception and returns from none (60_exceptions.md R140, R148, R149), so there is no entry operation. -/

namespace Sys2Proof.Machine

/-- The number of consecutive 0 bits of `v` going down from bit `k - 1` (R10). -/
def zerosFrom : Nat → BitVec 64 → Nat
  | 0, _ => 0
  | k + 1, v => if v.getLsbD k then 0 else 1 + zerosFrom k v

/-- `clz64` (R10): leading zeros counted from bit 63; 64 for zero, a value no rule uses. -/
def clz64 (v : BitVec 64) : Nat := zerosFrom 64 v

/-- `shl64` (R10): `(v * 2^k) mod 2^64`. -/
def shl64 (v : BitVec 64) (k : Nat) : BitVec 64 := BitVec.ofNat 64 (v.toNat * 2 ^ k)

/-- `normalize(v) -> (nz, F)` (R84), meant for `v != 0`. -/
def normalize (v : BitVec 64) : Nat × BitVec 64 := (clz64 v, shl64 v (clz64 v))

/-- The working exponent of `X2D`, a mathematical integer (R85, 92_eei_decisions.md D10): the stored
exponent re-biased to the double's bias, less the normalization shift. -/
def workingExp (exp15 : BitVec 15) (nz : Nat) : Int := (exp15.toNat : Int) + 1023 - 16383 - (nz : Int)

/-- `rne_shift(F, sh)` (R88): `F / 2^sh` to the nearest integer, ties to the even one, on natural numbers,
so that a shift by 64 or more means what R88 says (92_eei_decisions.md D7). -/
def rneShift (F sh : Nat) : Nat :=
  let kept := F / 2 ^ sh
  let rem := F % 2 ^ sh
  let half := 2 ^ (sh - 1)
  kept + (if half < rem ∨ (rem = half ∧ kept % 2 = 1) then 1 else 0)

/-- `pack_d(sign, E, m)` (R93, R120). -/
def packD (sign : BitVec 1) (E : BitVec 11) (m : BitVec 52) : DPort := sign ++ E ++ m

/-- Assembly on the subnormal path (R94): `q` is added into the low 63 bits, so a carry to `2^52` lands in
the exponent field (90_conflicts.md C2). -/
def assembleSub (sign : BitVec 1) (q : Nat) : DPort := sign ++ BitVec.ofNat 63 q

/-- `e'` of the normal path (R91): the exponent after a carry into the next binade. -/
def roundedExp (e : Int) (q : Nat) : Int := if q = 2 ^ 53 then e + 1 else e

/-- `m` of the normal path (R91): the mantissa field without the implicit bit, 0 after a carry. -/
def roundedMan (q : Nat) : Nat := if q = 2 ^ 53 then 0 else q - 2 ^ 52

/-- Assembly on the normal path with the overflow test after rounding (R91, R119). -/
def assembleNorm (sign : BitVec 1) (e : Int) (q : Nat) : DPort :=
  if 2047 ≤ roundedExp e q then packD sign 2047#11 0#52
  else packD sign (BitVec.ofInt 11 (roundedExp e q)) (BitVec.ofNat 52 (roundedMan q))

/-- The block drives all its output ports for this transaction (R12, R20). -/
def State.drive (s : State) (o : OutPorts) : State := { s with out := o }

/-- The environment's move (R12, R169): the next transaction of its run stands on the input ports, the
listed ones first. With none the run is over and there is no move. -/
def State.present (s : State) : Option State :=
  match s.pending with
  | p :: rest => some { s with inp := p, pending := rest }
  | [] =>
    match s.later with
    | .ended => none
    | .endless k => some { s with inp := InPorts.ofWord (Config.environmentWord k), later := .endless (k + 1) }

/-- The transaction word on the input ports (R60). -/
def State.fetch (s : State) : TxWord := s.inp.word

/-- The environment will present `p` next, before whatever else is pending. -/
def State.enqueueFirst (s : State) (p : InPorts) : State := { s with pending := p :: s.pending }

end Sys2Proof.Machine
end

