-- ==== Sys2Proof/Machine/DoubleExporter.lean ====
section
/-! DEFINITION. `X2D`, extended to double, the source's DoubleExporter (42_x2d.md). The mantissa of a NaN
result is an argument here (00_scope.md R7) and the instance's constant in `execX2d`. -/

namespace Sys2Proof.Machine

/-- The paths of `X2D` (40_datapath_blocks.md R82). -/
inductive X2dPath where
  | infNan
  | zero
  | sub
  | norm
  deriving DecidableEq, Repr

/-- Path selection in the priority order of R82 (60_exceptions.md R146): all-ones exponent, then zero
fraction, then the split on the working exponent before rounding (42_x2d.md R115). -/
def x2dPath (exp15 : BitVec 15) (fr : BitVec 64) : X2dPath :=
  if expMaxX exp15 then .infNan
  else if frZero fr then .zero
  else if workingExp exp15 (normalize fr).1 ≤ 0 then .sub
  else .norm

/-- `e` of an operand on the finite path (R85, R114). -/
def x2dExp (exp15 : BitVec 15) (fr : BitVec 64) : Int := workingExp exp15 (normalize fr).1

/-- `q` on the subnormal path (R90): shift amount `12 - e`. -/
def x2dSubQ (exp15 : BitVec 15) (fr : BitVec 64) : Nat :=
  rneShift (normalize fr).2.toNat (12 - x2dExp exp15 fr).toNat

/-- `q` on the normal path (R91): shift amount 11. -/
def x2dNormQ (fr : BitVec 64) : Nat := rneShift (normalize fr).2.toNat 11

/-- `d_out` of an `X2D` transaction (R110 to R120) for a NaN mantissa `nanMant`. -/
def x2dResult (nanMant : BitVec 52) (sign : BitVec 1) (exp15 : BitVec 15) (fr : BitVec 64) : DPort :=
  match x2dPath exp15 fr with
  | .infNan => if frZero fr then packD sign 2047#11 0#52 else packD sign 2047#11 nanMant
  | .zero => packD sign 0#11 0#52
  | .sub => assembleSub sign (x2dSubQ exp15 fr)
  | .norm => assembleNorm sign (x2dExp exp15 fr) (x2dNormQ fr)

/-- `ovf` (R83): the rounded exponent of the normal path reaches 2047. Not on any port, not a flag. -/
def x2dOvf (exp15 : BitVec 15) (fr : BitVec 64) : Bool :=
  x2dPath exp15 fr == .norm && decide (2047 ≤ roundedExp (x2dExp exp15 fr) (x2dNormQ fr))

/-- `unf` (R83): the subnormal path rounds to zero. Not on any port, not a flag. -/
def x2dUnf (exp15 : BitVec 15) (fr : BitVec 64) : Bool :=
  x2dPath exp15 fr == .sub && x2dSubQ exp15 fr == 0

/-- The output ports of an `X2D` transaction (R110, R125): `x_out` is 0, `cls` the class of the input. -/
def x2dOutputs (nanMant : BitVec 52) (sign : BitVec 1) (exp15 : BitVec 15) (fr : BitVec 64) : OutPorts where
  dOut := x2dResult nanMant sign exp15 fr
  xOut := 0#80
  cls := bcdX exp15 fr

/-- `X2D` (R110): it drives the output ports, reads no state (R128), ignores `d_in` (R67), and cannot
fail (60_exceptions.md R140). -/
def execX2d (sign : BitVec 1) (exp15 : BitVec 15) (fr : BitVec 64) (_dIgnored : DPort) (s : State) :
    Host.Outcome State Fault Refusal :=
  .next (s.drive (x2dOutputs Config.dNanMant sign exp15 fr))

/-- The source's entry point `toDouble(e: ExtendedValue) -> double` (00_scope.md R3, 30_encoding.md R69). -/
def toDouble (v : ExtendedValue) : DPort :=
  x2dResult Config.dNanMant (xSign (portOfValue v)) (xExp15 (portOfValue v)) (xFrac (portOfValue v))

end Sys2Proof.Machine
end

