-- ==== Sys2Proof/Machine/DoubleImporter.lean ====
section
/-! DEFINITION. `D2X`, double to extended, the source's DoubleImporter (41_d2x.md). Always exact. -/

namespace Sys2Proof.Machine

/-- Subnormal double (R102, 40_datapath_blocks.md R87): `nz` is counted on the mantissa zero-extended to
64 bits (90_conflicts.md C1). -/
def d2xSubnormal (dman : BitVec 52) : BitVec 15 × BitVec 64 :=
  let n := normalize (dman.setWidth 64)
  (BitVec.ofNat 15 (16383 - 1022 + 11 - n.1), n.2)

/-- Normal double (R105): re-bias the exponent, put the implicit 1 at bit 63 and the mantissa below it. -/
def d2xNormal (dexp : BitVec 11) (dman : BitVec 52) : BitVec 15 × BitVec 64 :=
  (BitVec.ofNat 15 (dexp.toNat + 16383 - 1023), (1#64 <<< 63) ||| (dman.setWidth 64 <<< 11))

/-- Exponent field and fraction of the result in the five cases (R100 to R105). -/
def d2xFields (dexp : BitVec 11) (dman : BitVec 52) : BitVec 15 × BitVec 64 :=
  if expZeroD dexp then
    (if manZero dman then (0#15, 0#64) else d2xSubnormal dman)
  else if expMaxD dexp then
    (if manZero dman then (0x7FFF#15, 0#64) else (0x7FFF#15, 0xFFFFFFFFFFFFFFFF#64))
  else d2xNormal dexp dman

/-- `x_out` of a `D2X` transaction; the sign is copied in every case (R106). -/
def d2xResult (dsign : BitVec 1) (dexp : BitVec 11) (dman : BitVec 52) : XPort :=
  packX dsign (d2xFields dexp dman).1 (d2xFields dexp dman).2

/-- The output ports of a `D2X` transaction (R100, R107): `d_out` is 0, `cls` the class of the input. -/
def d2xOutputs (dsign : BitVec 1) (dexp : BitVec 11) (dman : BitVec 52) : OutPorts where
  dOut := 0#64
  xOut := d2xResult dsign dexp dman
  cls := bcdD dexp dman

/-- `D2X` (R100): it drives the output ports, reads no state (R109), ignores `x_in` (R67), and cannot
fail (60_exceptions.md R140). -/
def execD2x (dsign : BitVec 1) (dexp : BitVec 11) (dman : BitVec 52) (_xIgnored : XPort) (s : State) :
    Host.Outcome State Fault Refusal :=
  .next (s.drive (d2xOutputs dsign dexp dman))

/-- The source's entry point `fromDouble(x: double) -> ExtendedValue` (00_scope.md R3, 30_encoding.md R69). -/
def fromDouble (d : DPort) : ExtendedValue := valueOfPort (d2xResult (dSign d) (dExp d) (dMan d))

end Sys2Proof.Machine
end

