-- ==== Sys2Proof/Machine/Dispatch.lean ====
section
/-! DEFINITION. One arm per constructor of `Instr` (30_encoding.md R61, R65). -/

namespace Sys2Proof.Machine

def exec (i : Instr) (s : State) : Host.Outcome State Fault Refusal :=
  match i with
  | .x2d sign exp15 fr dIgnored => Sys2Proof.Machine.execX2d sign exp15 fr dIgnored s
  | .d2x dsign dexp dman xIgnored => Sys2Proof.Machine.execD2x dsign dexp dman xIgnored s

end Sys2Proof.Machine
end

