-- ==== Sys2Proof/Machine/Step.lean ====
section
/-! DEFINITION. One step is one transaction (00_scope.md R12): the environment presents a setting of the
input ports, the block decodes and evaluates it. -/

namespace Sys2Proof.Machine

/-- One transaction (R12). There is no program counter to fetch at (10_state.md R25): the transaction is
what stands on the input ports once the environment has moved. Once the run is over (70_reset_and_hazards.md
R169) there is no transaction, and the step answers the state as it is (notes/assumptions/2.md), since a step
function never answers a fault or a refusal (60_exceptions.md R140). -/
def step (s : State) : Host.Outcome State Fault Refusal :=
  match s.present with
  | some t => exec (decode t.fetch) t
  | none => .next s

/-- The environment will present the transaction word `w` next (30_encoding.md R60), so that the very next
step runs it. -/
def State.withFetchWord (s : State) (nbits w : Nat) : State :=
  s.enqueueFirst (InPorts.ofWord (BitVec.ofNat 145 (tableBits nbits w)))

end Sys2Proof.Machine
end

