-- ==== Sys2Proof/Machine/Codec.lean ====
section
/-! DEFINITION. The 10-byte serialized forms of an `ExtendedValue` (20_memory.md R40 to R46): four pure
functions outside the block (92_eei_decisions.md D14), the pseudo-operations `ENCBE`, `ENCLE`, `DECBE` and
`DECLE` of 30_encoding.md R71. They expand to no transaction. -/

namespace Sys2Proof.Machine

/-- The one failure of the codec (R46, 60_exceptions.md R144): raised at its boundary, outside the block. -/
inductive CodecError where
  /-- The buffer is not exactly ten bytes: a caller contract violation. -/
  | invalidArgument
  deriving DecidableEq, Repr

/-- `encodeBE` (R41): `signExponent` high byte first, then `fraction` high byte first. -/
def encodeBE (v : ExtendedValue) : List Byte :=
  [v.signExponent.extractLsb' 8 8, v.signExponent.extractLsb' 0 8,
   v.fraction.extractLsb' 56 8, v.fraction.extractLsb' 48 8,
   v.fraction.extractLsb' 40 8, v.fraction.extractLsb' 32 8,
   v.fraction.extractLsb' 24 8, v.fraction.extractLsb' 16 8,
   v.fraction.extractLsb' 8 8, v.fraction.extractLsb' 0 8]

/-- `encodeLE` (R42): `fraction` low byte first, then `signExponent` low byte first. -/
def encodeLE (v : ExtendedValue) : List Byte :=
  [v.fraction.extractLsb' 0 8, v.fraction.extractLsb' 8 8,
   v.fraction.extractLsb' 16 8, v.fraction.extractLsb' 24 8,
   v.fraction.extractLsb' 32 8, v.fraction.extractLsb' 40 8,
   v.fraction.extractLsb' 48 8, v.fraction.extractLsb' 56 8,
   v.signExponent.extractLsb' 0 8, v.signExponent.extractLsb' 8 8]

/-- `decodeBE` (R43) with the size check at the boundary (R46). -/
def decodeBE : List Byte → Except CodecError ExtendedValue
  | [b0, b1, b2, b3, b4, b5, b6, b7, b8, b9] =>
    .ok { signExponent := b0 ++ b1, fraction := b2 ++ b3 ++ b4 ++ b5 ++ b6 ++ b7 ++ b8 ++ b9 }
  | _ => .error .invalidArgument

/-- `decodeLE` (R43) with the size check at the boundary (R46). -/
def decodeLE : List Byte → Except CodecError ExtendedValue
  | [b0, b1, b2, b3, b4, b5, b6, b7, b8, b9] =>
    .ok { signExponent := b9 ++ b8, fraction := b7 ++ b6 ++ b5 ++ b4 ++ b3 ++ b2 ++ b1 ++ b0 }
  | _ => .error .invalidArgument

/-- `encode(e, order) -> byte[10]` (R40, 30_encoding.md R69). -/
def codecEncode (order : ByteOrder) (v : ExtendedValue) : List Byte :=
  match order with
  | .big => encodeBE v
  | .little => encodeLE v

/-- `decode(bytes[10], order) -> ExtendedValue` (R40, 30_encoding.md R69). -/
def codecDecode (order : ByteOrder) (buf : List Byte) : Except CodecError ExtendedValue :=
  match order with
  | .big => decodeBE buf
  | .little => decodeLE buf

/-- A buffer read as one big-endian number (R41: "the buffer read as one 80-bit big-endian number"). -/
def bufferNumber : List Byte → Nat
  | [] => 0
  | b :: rest => b.toNat * 256 ^ rest.length + bufferNumber rest

end Sys2Proof.Machine
end

