-- ==== Sys2Proof/Machine/Values.lean ====
section
/-! DEFINITION. The mathematical value functions (00_scope.md R13 to R18). They are functions of the spec,
not hardware: they let a statement say "the same mathematical value" and "nearest representable value". -/

namespace Sys2Proof.Machine

/-- The class of an extended operand on a port (R14). -/
def xClass (x : XPort) : Cls := bcdX (xExp15 x) (xFrac x)

/-- The class of a double (R16). -/
def dClass (d : DPort) : Cls := bcdD (dExp d) (dMan d)

/-- `xmag` (R15, R17) for the scale `subExp` of exponent field 0; infinities and NaNs have none. -/
def xMag (subExp : Int) (x : XPort) : Option ℚ :=
  if xExp15 x = 0x7FFF#15 then none
  else if xExp15 x = 0#15 then some ((xFrac x).toNat / 2 ^ 63 * 2 ^ subExp)
  else some ((xFrac x).toNat / 2 ^ 63 * 2 ^ (((xExp15 x).toNat : Int) - 16383))

/-- `dmag` (R16): implicit leading 1 for normals, scale `2^(-1074)` for subnormals and zero; infinities
and NaNs have none. -/
def dMag (d : DPort) : Option ℚ :=
  if dExp d = 2047#11 then none
  else if dExp d = 0#11 then some ((dMan d).toNat * 2 ^ (-1074 : Int))
  else some ((2 ^ 52 + (dMan d).toNat) / 2 ^ 52 * 2 ^ (((dExp d).toNat : Int) - 1023))

/-- `xval` (R15) with the instance's reading of exponent field 0 (R7, R17). -/
def xVal (x : XPort) : Option ℚ :=
  (xMag Config.xSubExp x).map fun m => if xSign x = 1#1 then -m else m

/-- The signed value of a double (R16). -/
def dVal (d : DPort) : Option ℚ :=
  (dMag d).map fun m => if dSign d = 1#1 then -m else m

/-- The least magnitude that rounds to infinity: the midpoint between the largest finite double and
`2^1024` (R18). -/
def overflowBound : ℚ := 2 ^ 1024 - 2 ^ 970

/-- `d[62:0]` is the encoding of `rne_d(v)` (R18): infinity from `overflowBound` up; below it a finite
double at least as near to `v` as every other finite double, and even where another is equally near. -/
def IsRneD (v : ℚ) (d : DPort) : Prop :=
  if overflowBound ≤ v then dLow d = 0x7FF0000000000000#63
  else ∃ m, dMag d = some m ∧ ∀ d' m', dMag d' = some m' →
    |v - m| ≤ |v - m'| ∧ (|v - m'| = |v - m| → m' ≠ m → d.getLsbD 0 = false)

/-- What the contract of `X2D` asks of a double for an extended operand (42_x2d.md R110, R111, R112, R123,
R124), for either scale of exponent field 0. -/
structure RoundsTo (x : XPort) (d : DPort) : Prop where
  sign     : dSign d = xSign x
  nan      : xClass x = .nan → dClass d = .nan
  infinity : xClass x = .infinity → dClass d = .infinity
  nearest  : ∀ subExp v, xSubExpWf subExp = true → xMag subExp x = some v → IsRneD v d

/-- What the contract of `D2X` asks of an extended value for a double operand (41_d2x.md R100, R103, R104,
R106): the same sign and exactly the same magnitude. -/
structure ExactlyEquals (d : DPort) (x : XPort) : Prop where
  sign     : xSign x = dSign d
  nan      : dClass d = .nan → xClass x = .nan
  infinity : dClass d = .infinity → xClass x = .infinity
  exact    : ∀ subExp m, xSubExpWf subExp = true → dMag d = some m → xMag subExp x = some m

end Sys2Proof.Machine
end

