-- ==== Sys2Proof/Safety.lean ====
section
/-! DEFINITION. What counts as a safe run, and the terms statements use: a step that goes on, settled
output ports, and what the environment observes of a run. -/

namespace Sys2Proof.Machine

/-- The machine goes on from `s` (60_exceptions.md R140: every transaction does). -/
def Proceeds (s : State) : Prop := ∃ s', step s = .next s'

/-- The output ports are what the rules give for the input ports (10_state.md R30, 70_reset_and_hazards.md
R160): the class of the operand read, zero on the port not selected, and the contract of the operation. -/
structure PortsSettled (p : InPorts) (o : OutPorts) : Prop where
  x2d : p.op = 0#1 → RoundsTo p.xIn o.dOut ∧ o.xOut = 0#80 ∧ o.cls = xClass p.xIn
  d2x : p.op = 1#1 → ExactlyEquals p.dIn o.xOut ∧ o.dOut = 0#64 ∧ o.cls = dClass p.dIn

/-- The state's ports are settled. -/
def State.Settled (s : State) : Prop := PortsSettled s.inp s.out

/-- The first `k` transactions the environment will present from here, fewer where the run ends before
(70_reset_and_hazards.md R169). -/
def State.presented (s : State) (k : Nat) : List InPorts :=
  s.pending.take k ++
    match s.later with
    | .ended => []
    | .endless n => (List.range (k - s.pending.length)).map fun i => InPorts.ofWord (Config.environmentWord (n + i))

/-- What is observable of the first `k` transactions of a run: the (inputs, outputs) pair of each, fewer
where the run ends before (R169: "a run ends when the environment presents no further transaction"). -/
def observe : Nat → State → List (InPorts × OutPorts)
  | 0, _ => []
  | k + 1, s =>
    match s.present with
    | none => []
    | some _ =>
      match step s with
      | .next s' => (s'.inp, s'.out) :: observe k s'
      | .fault _ => []
      | .refused _ => []

/-- `run` is the sequence of states while the environment presents `env 0`, `env 1` and so on without end
(R168, R169). -/
def IsEndlessRun (env : Nat → InPorts) (run : Nat → State) : Prop :=
  ∀ k, step ((run k).enqueueFirst (env k)) = .next (run (k + 1))

end Sys2Proof.Machine
end

