-- ==== Sys2Proof/Certificates/Slice0/Obligations.lean ====
section
/-! DEFINITION. The statements for the provers, from the numbered rules of spec/. A transaction that
completes is written `exec i s = .next { s with out := o }`: it says that the machine goes on and that
nothing but the output ports changes. -/

open Sys2Proof Sys2Proof.Machine

/-! ## Encoding and decoding -/

/-- Words written out from R60's field table for transactions of 95_test_vectors.md section 4. -/
def Obligations.DecodesWordsOfTheSpec : Prop :=
  decode 0x03FFF80000000000000000000000000000000#145 = .x2d 0#1 0x3FFF#15 0x8000000000000000#64 0#64 ∧
  decode 0x0C000C90FDAA22168C2350000000000000000#145 = .x2d 1#1 0x4000#15 0xC90FDAA22168C235#64 0#64 ∧
  decode 0x1000000000000000000000000000000000001#145 = .d2x 0#1 0#11 1#52 0#80 ∧
  decode 0x100000000000000000000FFF0000000000001#145 = .d2x 1#1 2047#11 1#52 0#80

/-- R60 and R62, R63: the transaction word holds the three ports at the places of R60's table, and the
decoder cuts the operand fields out of the selected port with no arithmetic. -/
def Obligations.DecodeCutsFieldsFromPorts : Prop :=
  ∀ p : InPorts,
    (p.word.extractLsb' 144 1 = p.op ∧ p.word.extractLsb' 128 16 = p.xIn.extractLsb' 64 16 ∧
      p.word.extractLsb' 64 64 = p.xIn.extractLsb' 0 64 ∧ p.word.extractLsb' 0 64 = p.dIn) ∧
    (p.op = 0#1 → decode p.word =
      .x2d (p.xIn.extractLsb' 79 1) (p.xIn.extractLsb' 64 15) (p.xIn.extractLsb' 0 64) p.dIn) ∧
    (p.op = 1#1 → decode p.word =
      .d2x (p.dIn.extractLsb' 63 1) (p.dIn.extractLsb' 52 11) (p.dIn.extractLsb' 0 52) p.xIn)

/-- R65: the two rows' match values under the mask `2^144` tell the operations apart, and one of the two
rows matches every transaction word (R66). -/
def Obligations.OpcodeMapCoversEveryWord : Prop :=
  ∀ tw : TxWord,
    (tw &&& BitVec.ofNat 145 (2 ^ 144) = 0#145 ↔ ∃ sg e f d, decode tw = .x2d sg e f d) ∧
    (tw &&& BitVec.ofNat 145 (2 ^ 144) = BitVec.ofNat 145 (2 ^ 144) ↔ ∃ sg e m x, decode tw = .d2x sg e m x) ∧
    (tw &&& BitVec.ofNat 145 (2 ^ 144) = 0#145 ∨
      tw &&& BitVec.ofNat 145 (2 ^ 144) = BitVec.ofNat 145 (2 ^ 144))

/-- R60, R65, R66: every instruction is well formed and decodes from its own word, and every transaction
word is the encoding of what it decodes to, so no bit of an encoding is dropped. -/
def Obligations.DecodeAndEncodeAgree : Prop :=
  (∀ i : Instr, i.wellFormed = true ∧ decode (encode i) = i) ∧ (∀ tw : TxWord, encode (decode tw) = tw)

/-- A number decodes exactly when it is a transaction word, and then as R61 to R66 say. That a number with a
bit above `TW[144]` is rejected is the model's own reading of the one transaction length (DEDUCED,
notes/assumptions/8.md): no rule speaks of such a number. -/
def Obligations.TableWordDecodesIffTransactionWord : Prop :=
  ∀ nbits w : Nat, 145 ≤ nbits →
    (w < 2 ^ 145 → decodeTableWord nbits w = some (decode (BitVec.ofNat 145 w))) ∧
    (2 ^ 145 ≤ w → w < 2 ^ nbits → decodeTableWord nbits w = none)

/-! ## The step -/

/-- R12, R169: a step runs the transaction the environment presents: the first of those listed, else the next
of an endless run (the list and the free words stand for its choice, notes/assumptions/2.md). When the run is
over it runs none; that the step then answers the same state is the model's choice (DESIGN CHOICE,
notes/assumptions/2.md). -/
def Obligations.StepRunsPresentedTransaction : Prop :=
  ∀ s : State,
    (∀ p rest i, s.pending = p :: rest → decode p.word = i →
      step s = exec i { s with inp := p, pending := rest }) ∧
    (∀ k i, s.pending = [] → s.later = .endless k → decode (Config.environmentWord k) = i →
      step s = exec i
        { s with inp := InPorts.ofWord (Config.environmentWord k), later := .endless (k + 1) }) ∧
    (s.pending = [] → s.later = .ended → step s = .next s)

/-- The very next step runs the word `withFetchWord` places, with that setting on the input ports and
everything else as it was (notes/assumptions/4.md). -/
def Obligations.PlacedWordRunsNext : Prop :=
  ∀ (s : State) (nbits w : Nat) (i : Instr), 145 ≤ nbits → w < 2 ^ 145 → decodeTableWord nbits w = some i →
    step (s.withFetchWord nbits w) = exec i { s with inp := InPorts.ofWord (BitVec.ofNat 145 w) } ∧
    (InPorts.ofWord (BitVec.ofNat 145 w)).word = BitVec.ofNat 145 w

/-- R140: no transaction can fail, and the step function is total. Every transaction that comes to the ports
completes with the output ports driven and nothing else changed beyond the environment's own move; no step
answers a fault or a refusal. -/
def Obligations.NoTransactionFails : Prop :=
  (∀ i s, ∃ o, exec i s = .next { s with out := o }) ∧
  (∀ s t, s.present = some t → ∃ o, step s = .next { t with out := o }) ∧
  (∀ s, ∃ s', step s = .next s')

/-- The frame of both operations (10_state.md R24, R28): a transaction changes no input port and none of the
environment's further transactions; a step takes the one that comes to the ports off them. How `pending` and
`later` stand for the environment, and that a step after the end of the run changes nothing, so that the input
ports keep their setting, is the model's choice (DESIGN CHOICE, notes/assumptions/2.md), no rule's. -/
def Obligations.TransactionChangesOnlyOutputs : Prop :=
  (∀ i s s', exec i s = .next s' → s'.inp = s.inp ∧ s'.pending = s.pending ∧ s'.later = s.later) ∧
  (∀ s s', step s = .next s' → s'.pending = s.pending.tail ∧
    (∀ p rest, s.pending = p :: rest → s'.inp = p ∧ s'.later = s.later) ∧
    (∀ k, s.pending = [] → s.later = .endless k →
      s'.inp = InPorts.ofWord (Config.environmentWord k) ∧ s'.later = .endless (k + 1)) ∧
    (s.pending = [] → s.later = .ended → s' = s))

/-- R67, R109, R128: the outputs depend on the selected operand alone, not on the ignored port, on what the
output ports held, or on what the environment will present later. -/
def Obligations.OutputsDependOnSelectedOperandOnly : Prop :=
  ∀ s1 s2 t1 t2 : State, s1.present = some t1 → s2.present = some t2 → t1.inp.op = t2.inp.op →
    (t1.inp.op = 0#1 → t1.inp.xIn = t2.inp.xIn →
      ∃ o, step s1 = .next { t1 with out := o } ∧ step s2 = .next { t2 with out := o }) ∧
    (t1.inp.op = 1#1 → t1.inp.dIn = t2.inp.dIn →
      ∃ o, step s1 = .next { t1 with out := o } ∧ step s2 = .next { t2 with out := o })

/-- R30, R160 as an invariant: every step keeps the output ports settled for the input ports, and from every
state whatever a step that runs a transaction answers a settled state. -/
def Obligations.StepSettlesThePorts : Prop :=
  (∀ s s' : State, s.Settled → step s = .next s' → s'.Settled) ∧
  (∀ s t : State, s.present = some t → ∃ s', step s = .next s' ∧ s'.Settled)

/-- R30, R160: the ports are settled at power-up; the outputs are those of R113 for the inputs. The zeros on
the input ports there are the model's choice (DESIGN CHOICE, notes/assumptions/3.md), and so is that a step
with no transaction to come answers the same state (DESIGN CHOICE, notes/assumptions/2.md). -/
def Obligations.PowerUpIsSettled : Prop :=
  State.reset.Settled ∧ step State.reset = .next State.reset

/-- R169, R162, R163: one function of the inputs alone gives the observation of every run, finite or
infinite, whatever the state the run starts from, and what it gives is settled by the rules. A run is observed
by each of its beginnings; nothing is observed after its end. -/
def Obligations.RunObservesEachTransactionAlone : Prop :=
  ∃ f : InPorts → OutPorts, (∀ p, PortsSettled p (f p)) ∧
    ∀ (k : Nat) (s : State), observe k s = (s.presented k).map fun p => (p, f p)

/-! ## D2X, double to extended -/

/-- R101: a zero double gives the signed zero. -/
def Obligations.D2xZero : Prop :=
  ∀ sg x s, ∃ o, exec (.d2x sg 0#11 0#52 x) s = .next { s with out := o } ∧ o.xOut = sg ++ 0#15 ++ 0#64

/-- R102: a subnormal double is normalized; the result is exact, of class normal, with its integer bit set. -/
def Obligations.D2xSubnormal : Prop :=
  ∀ sg (dman : BitVec 52) x s, dman ≠ 0#52 →
    ∃ (o : OutPorts) (exp15 : BitVec 15) (fr : BitVec 64) (nz : Nat),
      exec (.d2x sg 0#11 dman x) s = .next { s with out := o } ∧ o.xOut = sg ++ exp15 ++ fr ∧
      nz = clz64 (dman.setWidth 64) ∧ 12 ≤ nz ∧ nz ≤ 63 ∧
      fr.toNat = dman.toNat * 2 ^ nz ∧ fr.getLsbD 63 = true ∧
      exp15.toNat + nz = 15372 ∧ 15309 ≤ exp15.toNat ∧ exp15.toNat ≤ 15360 ∧
      (fr.toNat : ℚ) / 2 ^ 63 * 2 ^ ((exp15.toNat : ℤ) - 16383) = (dman.toNat : ℚ) * 2 ^ (-1074 : ℤ) ∧
      bcdX exp15 fr = .normal

/-- R103: an infinite double gives exponent all ones and fraction 0. -/
def Obligations.D2xInfinity : Prop :=
  ∀ sg x s, ∃ o, exec (.d2x sg 2047#11 0#52 x) s = .next { s with out := o } ∧ o.xOut = sg ++ 0x7FFF#15 ++ 0#64

/-- R104: every NaN double of one sign gives the same all-ones fraction. -/
def Obligations.D2xNaN : Prop :=
  ∀ sg dman x s, dman ≠ 0#52 →
    ∃ o, exec (.d2x sg 2047#11 dman x) s = .next { s with out := o } ∧
      o.xOut = sg ++ 0x7FFF#15 ++ 0xFFFFFFFFFFFFFFFF#64

/-- R105: a normal double is re-biased and its mantissa placed below the implicit 1; exact. -/
def Obligations.D2xNormal : Prop :=
  ∀ sg (dexp : BitVec 11) (dman : BitVec 52) x s, 1 ≤ dexp.toNat → dexp.toNat ≤ 2046 →
    ∃ (o : OutPorts) (exp15 : BitVec 15) (fr : BitVec 64),
      exec (.d2x sg dexp dman x) s = .next { s with out := o } ∧ o.xOut = sg ++ exp15 ++ fr ∧
      exp15.toNat = dexp.toNat + 15360 ∧ 15361 ≤ exp15.toNat ∧ exp15.toNat ≤ 17406 ∧
      fr.getLsbD 63 = true ∧ fr.extractLsb' 11 52 = dman ∧ fr.extractLsb' 0 11 = 0#11 ∧
      (fr.toNat : ℚ) / 2 ^ 63 = (2 ^ 52 + (dman.toNat : ℚ)) / 2 ^ 52

/-- R100's contract: `D2X` keeps sign, NaN-ness and infinity, and every finite value exactly, for either
reading of exponent field 0. -/
def Obligations.D2xIsExact : Prop :=
  ∀ d x s, ∃ o, exec (d2xOf d x) s = .next { s with out := o } ∧ ExactlyEquals d o.xOut

/-- R108 (the spec's inference): the image of `D2X`, and that it is injective on non-NaN doubles. -/
def Obligations.D2xImageAndInjectivity : Prop :=
  (∀ d x s, ∃ o, exec (d2xOf d x) s = .next { s with out := o } ∧
    (xClass o.xOut = .nan ∨ (xFrac o.xOut).extractLsb' 0 11 = 0#11) ∧
    xClass o.xOut ≠ .subnormal ∧
    (xClass o.xOut = .normal →
      o.xOut.getLsbD 63 = true ∧ 15309 ≤ (xExp15 o.xOut).toNat ∧ (xExp15 o.xOut).toNat ≤ 17406) ∧
    (xClass o.xOut = .infinity → o.xOut.getLsbD 63 = false)) ∧
  (∀ d1 d2 x1 x2 s1 s2 o1 o2, dClass d1 ≠ .nan → dClass d2 ≠ .nan →
    exec (d2xOf d1 x1) s1 = .next { s1 with out := o1 } → exec (d2xOf d2 x2) s2 = .next { s2 with out := o2 } →
    o1.xOut = o2.xOut → d1 = d2)

/-! ## X2D, extended to double: special operands -/

/-- R111: exponent all ones and fraction 0 give signed infinity. -/
def Obligations.X2dInfinity : Prop :=
  ∀ sg d s, ∃ o, exec (.x2d sg 0x7FFF#15 0#64 d) s = .next { s with out := o } ∧ o.dOut = sg ++ 0x7FF#11 ++ 0#52

/-- R112: every NaN operand of one sign gives the same NaN, whose mantissa is a nonzero constant of the
instance (R7; free in this model, notes/assumptions/1.md); the sign is copied. -/
def Obligations.X2dNaN : Prop :=
  ∃ m : BitVec 52, m ≠ 0#52 ∧ ∀ sg fr d s, fr ≠ 0#64 →
    ∃ o, exec (.x2d sg 0x7FFF#15 fr d) s = .next { s with out := o } ∧ o.dOut = sg ++ 0x7FF#11 ++ m

/-- R113: a zero fraction gives signed zero whatever the exponent below all ones; an operand with a nonzero
exponent is of class normal all the same. -/
def Obligations.X2dZeroFraction : Prop :=
  ∀ sg exp15 d s, exp15 ≠ 0x7FFF#15 →
    ∃ o, exec (.x2d sg exp15 0#64 d) s = .next { s with out := o } ∧ o.dOut = sg ++ 0#11 ++ 0#52 ∧
      (exp15 ≠ 0#15 → o.cls = .normal)

/-- R121 (the spec's inference): exponent field 0 with any nonzero fraction, pseudo-denormals included,
gives signed zero and class subnormal. -/
def Obligations.X2dExponentFieldZero : Prop :=
  ∀ sg fr d s, fr ≠ 0#64 →
    ∃ o, exec (.x2d sg 0#15 fr d) s = .next { s with out := o } ∧ o.dOut = sg ++ 0#11 ++ 0#52 ∧ o.cls = .subnormal

/-! ## X2D: the finite path -/

/-- R116: the subnormal path. `F` is the normalized significand, `e` the working exponent, `q` the rounded
quotient by `2^(12 - e)`; a carry to `2^52` is the smallest normal double. -/
def Obligations.X2dSubnormalPath : Prop :=
  ∀ sg (exp15 : BitVec 15) (fr : BitVec 64) d s (nz F : Nat) (e : ℤ),
    exp15 ≠ 0x7FFF#15 → F = fr.toNat * 2 ^ nz → 2 ^ 63 ≤ F → F < 2 ^ 64 →
    e = (exp15.toNat : ℤ) + 1023 - 16383 - nz → e ≤ 0 →
    ∃ (o : OutPorts) (q : Nat), exec (.x2d sg exp15 fr d) s = .next { s with out := o } ∧
      q = rneShift F (12 - e).toNat ∧ o.dOut = sg ++ BitVec.ofNat 63 q ∧
      (q = 0 ∨ (1 ≤ q ∧ q ≤ 2 ^ 52 - 1) ∨ q = 2 ^ 52) ∧
      (q = 0 → o.dOut = sg ++ 0#11 ++ 0#52) ∧
      (1 ≤ q → q ≤ 2 ^ 52 - 1 → o.dOut = sg ++ 0#11 ++ BitVec.ofNat 52 q) ∧
      (q = 2 ^ 52 → o.dOut = sg ++ 1#11 ++ 0#52)

/-- R117: on the subnormal path the result is a signed zero exactly when `e <= -53`, or `e = -52` and
`F = 2^63`; in magnitude, exactly up to and including `2^(-1075)`. -/
def Obligations.X2dUnderflow : Prop :=
  ∀ sg (exp15 : BitVec 15) (fr : BitVec 64) d s (nz F : Nat) (e : ℤ),
    exp15 ≠ 0x7FFF#15 → F = fr.toNat * 2 ^ nz → 2 ^ 63 ≤ F → F < 2 ^ 64 →
    e = (exp15.toNat : ℤ) + 1023 - 16383 - nz → e ≤ 0 →
    ∃ o, exec (.x2d sg exp15 fr d) s = .next { s with out := o } ∧
      (o.dOut = sg ++ 0#11 ++ 0#52 ↔ e ≤ -53 ∨ (e = -52 ∧ F = 2 ^ 63)) ∧
      (e = -52 → 2 ^ 63 < F → o.dOut = sg ++ 0#11 ++ 1#52) ∧
      (∀ subExp v, xSubExpWf subExp = true → xMag subExp (packX sg exp15 fr) = some v →
        (o.dOut = sg ++ 0#11 ++ 0#52 ↔ v ≤ 2 ^ (-1075 : ℤ)))

/-- R118: the normal path in guard and sticky terms, for a rounded exponent of at most 2046. -/
def Obligations.X2dNormalPath : Prop :=
  ∀ sg (exp15 : BitVec 15) (fr : BitVec 64) d s (nz F : Nat) (e : ℤ),
    exp15 ≠ 0x7FFF#15 → F = fr.toNat * 2 ^ nz → 2 ^ 63 ≤ F → F < 2 ^ 64 →
    e = (exp15.toNat : ℤ) + 1023 - 16383 - nz → 1 ≤ e →
    ∃ (o : OutPorts) (q m : Nat) (e' : ℤ), exec (.x2d sg exp15 fr d) s = .next { s with out := o } ∧
      q = F / 2 ^ 11 + (if F.testBit 10 = true ∧ (F % 2 ^ 10 ≠ 0 ∨ F.testBit 11 = true) then 1 else 0) ∧
      (q = 2 ^ 53 → m = 0 ∧ e' = e + 1) ∧ (q ≠ 2 ^ 53 → m + 2 ^ 52 = q ∧ e' = e) ∧
      (e' ≤ 2046 → o.dOut = sg ++ BitVec.ofInt 11 e' ++ BitVec.ofNat 52 m)

/-- R119: the normal path overflows to signed infinity exactly when the exponent after rounding reaches
2047; in magnitude, exactly from `2^1024 - 2^970` up. -/
def Obligations.X2dOverflow : Prop :=
  ∀ sg (exp15 : BitVec 15) (fr : BitVec 64) d s (nz F : Nat) (e : ℤ),
    exp15 ≠ 0x7FFF#15 → F = fr.toNat * 2 ^ nz → 2 ^ 63 ≤ F → F < 2 ^ 64 →
    e = (exp15.toNat : ℤ) + 1023 - 16383 - nz → 1 ≤ e →
    ∃ o, exec (.x2d sg exp15 fr d) s = .next { s with out := o } ∧
      (o.dOut = sg ++ 0x7FF#11 ++ 0#52 ↔ 2047 ≤ e ∨ (e = 2046 ∧ 0xFFFFFFFFFFFFFC00 ≤ F)) ∧
      (e = 2046 → F = 0xFFFFFFFFFFFFFBFF → o.dOut = sg ++ 2046#11 ++ 0xFFFFFFFFFFFFF#52) ∧
      (∀ subExp v, xSubExpWf subExp = true → xMag subExp (packX sg exp15 fr) = some v →
        (o.dOut = sg ++ 0x7FF#11 ++ 0#52 ↔ overflowBound ≤ v))

/-- R122: an unnormal converts as the operand it normalizes to: shifting the significand up and lowering
the exponent by the same amount does not change the double. -/
def Obligations.X2dUnnormalConvertsAsNormalized : Prop :=
  ∀ sg (exp15 : BitVec 15) (fr : BitVec 64) d s (k : Nat),
    exp15 ≠ 0x7FFF#15 → k < exp15.toNat → fr.toNat * 2 ^ k < 2 ^ 64 →
    ∃ o o', exec (.x2d sg exp15 fr d) s = .next { s with out := o } ∧
      exec (.x2d sg (exp15 - BitVec.ofNat 15 k) (BitVec.ofNat 64 (fr.toNat * 2 ^ k)) d) s
        = .next { s with out := o' } ∧
      o.dOut = o'.dOut ∧ o.cls = .normal ∧ o'.cls = .normal

/-- R127 (the spec's inference): the result by stored exponent for operands with the integer bit set. -/
def Obligations.X2dResultByStoredExponent : Prop :=
  ∀ sg (exp15 : BitVec 15) (fr : BitVec 64) d s, fr.getLsbD 63 = true →
    ∃ o, exec (.x2d sg exp15 fr d) s = .next { s with out := o } ∧
      (exp15.toNat ≤ 15307 → o.dOut = sg ++ 0#63) ∧
      (exp15.toNat = 15308 → o.dOut = sg ++ (if fr.toNat = 2 ^ 63 then 0#63 else 1#63)) ∧
      (15309 ≤ exp15.toNat → exp15.toNat ≤ 15360 →
        o.dOut = sg ++ BitVec.ofNat 63 (rneShift fr.toNat (15372 - exp15.toNat))) ∧
      (15361 ≤ exp15.toNat → exp15.toNat ≤ 17405 →
        (dExp o.dOut).toNat + 15360 = exp15.toNat ∨ (dExp o.dOut).toNat + 15360 = exp15.toNat + 1) ∧
      (exp15.toNat = 17406 → fr.toNat ≤ 0xFFFFFFFFFFFFFBFF → (dExp o.dOut).toNat = 2046) ∧
      (exp15.toNat = 17406 → 0xFFFFFFFFFFFFFBFF < fr.toNat → o.dOut = sg ++ 0x7FF#11 ++ 0#52) ∧
      (17407 ≤ exp15.toNat → exp15.toNat ≤ 32766 → o.dOut = sg ++ 0x7FF#11 ++ 0#52) ∧
      (exp15.toNat = 32767 → dClass o.dOut = .nan)

/-- R95 (the spec's cross-check): one formula for the whole finite path. -/
def Obligations.X2dOneFormula : Prop :=
  ∀ sg (exp15 : BitVec 15) (fr : BitVec 64) d s (nz F t : Nat) (e : ℤ),
    exp15 ≠ 0x7FFF#15 → F = fr.toNat * 2 ^ nz → 2 ^ 63 ≤ F → F < 2 ^ 64 →
    e = (exp15.toNat : ℤ) + 1023 - 16383 - nz →
    t = (max e 1 - 1).toNat * 2 ^ 52 + rneShift F (11 + (max 0 (1 - e)).toNat) →
    ∃ o, exec (.x2d sg exp15 fr d) s = .next { s with out := o } ∧
      o.dOut = sg ++ BitVec.ofNat 63 (min t 0x7FF0000000000000)

/-- R83: among operands on the finite path, `ovf` holds exactly where the result is an infinity and `unf`
exactly where it is a zero. -/
def Obligations.X2dLateConditionsNameTheResult : Prop :=
  ∀ sg (exp15 : BitVec 15) (fr : BitVec 64) d s, exp15 ≠ 0x7FFF#15 → fr ≠ 0#64 →
    ∃ o, exec (.x2d sg exp15 fr d) s = .next { s with out := o } ∧
      (x2dOvf exp15 fr = true ↔ o.dOut = sg ++ 0x7FF#11 ++ 0#52) ∧
      (x2dUnf exp15 fr = true ↔ o.dOut = sg ++ 0#11 ++ 0#52)

/-- R110's contract, R124: `X2D` gives the correctly rounded double, ties to even, with overflow to
infinity and underflow to zero, for every operand and either reading of exponent field 0. -/
def Obligations.X2dIsCorrectlyRounded : Prop :=
  ∀ x d s, ∃ o, exec (x2dOf x d) s = .next { s with out := o } ∧ RoundsTo x o.dOut

/-- R124's consequence (the spec's inference): of two operands of one sign the larger magnitude never gives
the smaller `d_out[62:0]`; an infinity is above every finite magnitude. -/
def Obligations.X2dIsMonotone : Prop :=
  ∀ x y d s subExp a, xSubExpWf subExp = true → xSign x = xSign y → xMag subExp x = some a →
    (∀ b, xMag subExp y = some b → a ≤ b → ∃ o o', exec (x2dOf x d) s = .next { s with out := o } ∧
      exec (x2dOf y d) s = .next { s with out := o' } ∧ (dLow o.dOut).toNat ≤ (dLow o'.dOut).toNat) ∧
    (xClass y = .infinity → ∃ o o', exec (x2dOf x d) s = .next { s with out := o } ∧
      exec (x2dOf y d) s = .next { s with out := o' } ∧ (dLow o.dOut).toNat ≤ (dLow o'.dOut).toNat)

/-- R18: the relation that says "correctly rounded" fixes the double's exponent and mantissa, so it is as
strong as the function `rne_d`. -/
def Obligations.NearestDoubleIsUnique : Prop :=
  ∀ v d d', IsRneD v d → IsRneD v d' → dLow d = dLow d'

/-! ## Sub-blocks -/

/-- R84, R10: for a nonzero word, `nz` is the number of zeros above the highest set bit and `F` is the word
shifted up by it with no set bit lost. -/
def Obligations.NormalizerPutsHighestBitOnTop : Prop :=
  ∀ v : BitVec 64, v ≠ 0#64 →
    (normalize v).1 ≤ 63 ∧ (normalize v).2.toNat = v.toNat * 2 ^ (normalize v).1 ∧
    (normalize v).2.getLsbD 63 = true ∧ v.getLsbD (63 - (normalize v).1) = true ∧
    ∀ i, 63 - (normalize v).1 < i → v.getLsbD i = false

/-- R85, R86 (the spec's inferences): the range of the working exponent, and that normalization keeps the
magnitude of a normal-class operand. -/
def Obligations.NormalizationKeepsMagnitude : Prop :=
  ∀ (sg : BitVec 1) (exp15 : BitVec 15) (fr : BitVec 64), exp15 ≠ 0x7FFF#15 → fr ≠ 0#64 →
    -15423 ≤ x2dExp exp15 fr ∧ x2dExp exp15 fr ≤ 17406 ∧
    (exp15 ≠ 0#15 → ∀ subExp, xMag subExp (packX sg exp15 fr) =
      some (((normalize fr).2.toNat : ℚ) / 2 ^ 63 * 2 ^ (x2dExp exp15 fr - 1023)))

/-- R88: the rounder gives the nearest integer, the even one on a tie; a shift by 65 or more gives 0 and a
shift by 64 compares with `2^63` (the spec's decision D7 for wide shifts). -/
def Obligations.RounderIsNearestEven : Prop :=
  ∀ F sh : Nat, F < 2 ^ 64 → 1 ≤ sh →
    |(F : ℤ) - (rneShift F sh : ℤ) * 2 ^ sh| ≤ 2 ^ (sh - 1) ∧
    (|(F : ℤ) - (rneShift F sh : ℤ) * 2 ^ sh| = 2 ^ (sh - 1) → rneShift F sh % 2 = 0) ∧
    (65 ≤ sh → rneShift F sh = 0) ∧ (sh = 64 → rneShift F sh = if 2 ^ 63 < F then 1 else 0)

/-- R89 (the spec's inference): the guard and sticky form of the rounder, for every word and shift. -/
def Obligations.RounderGuardStickyForm : Prop :=
  ∀ F sh : Nat, 1 ≤ sh → rneShift F sh =
    F / 2 ^ sh + (if F.testBit (sh - 1) = true ∧ (F % 2 ^ (sh - 1) ≠ 0 ∨ F.testBit sh = true) then 1 else 0)

/-- R90's bounds (the spec's inference): the shift amount and quotient of the subnormal path. -/
def Obligations.SubnormalQuotientBounds : Prop :=
  ∀ (F : Nat) (e : ℤ), 2 ^ 63 ≤ F → F < 2 ^ 64 → -15423 ≤ e → e ≤ 0 →
    12 ≤ (12 - e).toNat ∧ (12 - e).toNat ≤ 15435 ∧ rneShift F (12 - e).toNat ≤ 2 ^ 52 ∧
    (rneShift F (12 - e).toNat = 2 ^ 52 ↔ e = 0 ∧ 0xFFFFFFFFFFFFF800 ≤ F) ∧
    (rneShift F (12 - e).toNat = 0 ↔ e ≤ -53 ∨ (e = -52 ∧ F = 2 ^ 63))

/-- R91: the quotient, mantissa and exponent of the normal path. -/
def Obligations.NormalQuotientBounds : Prop :=
  ∀ (F : Nat) (e : ℤ), 2 ^ 63 ≤ F → F < 2 ^ 64 → 1 ≤ e → e ≤ 17406 →
    2 ^ 52 ≤ rneShift F 11 ∧ rneShift F 11 ≤ 2 ^ 53 ∧
    (rneShift F 11 = 2 ^ 53 ↔ 0xFFFFFFFFFFFFFC00 ≤ F) ∧
    1 ≤ roundedExp e (rneShift F 11) ∧ roundedExp e (rneShift F 11) ≤ 17407 ∧
    roundedMan (rneShift F 11) = rneShift F 11 % 2 ^ 52

/-! ## Entry points, sign, class and the port not selected -/

/-- R69: the source's two entry points are the two operations, on the data type and on the double. -/
def Obligations.EntryPointsAreTheOperations : Prop :=
  (∀ (v : ExtendedValue) d s, ∃ o, exec (x2dOf (portOfValue v) d) s = .next { s with out := o } ∧
    o.dOut = toDouble v) ∧
  (∀ d x s, ∃ o, exec (d2xOf d x) s = .next { s with out := o } ∧ o.xOut = portOfValue (fromDouble d)) ∧
  (∀ x, portOfValue (valueOfPort x) = x) ∧ (∀ v, valueOfPort (portOfValue v) = v)


/-- R106, R123: the sign bit of the operand is the sign bit of the result in every case. -/
def Obligations.SignIsCopied : Prop :=
  (∀ sg exp15 fr d s, ∃ o, exec (.x2d sg exp15 fr d) s = .next { s with out := o } ∧ dSign o.dOut = sg) ∧
  (∀ sg dexp dman x s, ∃ o, exec (.d2x sg dexp dman x) s = .next { s with out := o } ∧ xSign o.xOut = sg)

/-- R132: flipping the sign bit of the operand flips the sign bit of the result and changes nothing else. -/
def Obligations.SignSymmetry : Prop :=
  (∀ x d s, ∃ o o', exec (x2dOf x d) s = .next { s with out := o } ∧
    exec (x2dOf (x ^^^ BitVec.ofNat 80 (2 ^ 79)) d) s = .next { s with out := o' } ∧
    o'.dOut = o.dOut ^^^ BitVec.ofNat 64 (2 ^ 63) ∧ o'.xOut = o.xOut ∧ o'.cls = o.cls) ∧
  (∀ d x s, ∃ o o', exec (d2xOf d x) s = .next { s with out := o } ∧
    exec (d2xOf (d ^^^ BitVec.ofNat 64 (2 ^ 63)) x) s = .next { s with out := o' } ∧
    o'.xOut = o.xOut ^^^ BitVec.ofNat 80 (2 ^ 79) ∧ o'.dOut = o.dOut ∧ o'.cls = o.cls)

/-- R29, R107, R125 (the spec's decisions D6, D8): the code on `cls` by the class table of the operand, no
code above 4, and zero on the result port of the direction not selected. -/
def Obligations.ClassAndUnselectedPort : Prop :=
  (∀ sg (exp15 : BitVec 15) (fr : BitVec 64) d s,
    ∃ o, exec (.x2d sg exp15 fr d) s = .next { s with out := o } ∧ o.xOut = 0#80 ∧
      (clsCode o.cls = 0#3 ↔ exp15.toNat = 0 ∧ fr.toNat = 0) ∧
      (clsCode o.cls = 1#3 ↔ exp15.toNat = 0 ∧ fr.toNat ≠ 0) ∧
      (clsCode o.cls = 2#3 ↔ 1 ≤ exp15.toNat ∧ exp15.toNat ≤ 32766) ∧
      (clsCode o.cls = 3#3 ↔ exp15.toNat = 32767 ∧ fr.toNat = 0) ∧
      (clsCode o.cls = 4#3 ↔ exp15.toNat = 32767 ∧ fr.toNat ≠ 0) ∧ (clsCode o.cls).toNat ≤ 4) ∧
  (∀ sg (dexp : BitVec 11) (dman : BitVec 52) x s,
    ∃ o, exec (.d2x sg dexp dman x) s = .next { s with out := o } ∧ o.dOut = 0#64 ∧
      (clsCode o.cls = 0#3 ↔ dexp.toNat = 0 ∧ dman.toNat = 0) ∧
      (clsCode o.cls = 1#3 ↔ dexp.toNat = 0 ∧ dman.toNat ≠ 0) ∧
      (clsCode o.cls = 2#3 ↔ 1 ≤ dexp.toNat ∧ dexp.toNat ≤ 2046) ∧
      (clsCode o.cls = 3#3 ↔ dexp.toNat = 2047 ∧ dman.toNat = 0) ∧
      (clsCode o.cls = 4#3 ↔ dexp.toNat = 2047 ∧ dman.toNat ≠ 0) ∧ (clsCode o.cls).toNat ≤ 4)

/-! ## Laws across the two operations -/

/-- R130: double to extended to double is the identity bit for bit on every double that is not a NaN, and a
NaN comes back a NaN. -/
def Obligations.RoundTripDouble : Prop :=
  ∀ d x0 d0 s, ∃ o o', exec (d2xOf d x0) s = .next { s with out := o } ∧
    exec (x2dOf o.xOut d0) { s with out := o } = .next { s with out := o' } ∧
    (dClass d ≠ .nan → o'.dOut = d) ∧ (dClass d = .nan → dClass o'.dOut = .nan)

/-- R131 (the spec's inference): a NaN comes back with its sign and the instance's mantissa, so as itself
only when that is its own mantissa (free in this model, notes/assumptions/1.md). -/
def Obligations.RoundTripNaN : Prop :=
  ∃ m : BitVec 52, m ≠ 0#52 ∧ ∀ d x0 d0 s, dClass d = .nan →
    ∃ o o', exec (d2xOf d x0) s = .next { s with out := o } ∧
      exec (x2dOf o.xOut d0) { s with out := o } = .next { s with out := o' } ∧
      o'.dOut = dSign d ++ 0x7FF#11 ++ m ∧ (o'.dOut = d ↔ dMan d = m)

/-- R133 (the spec's inference): extended to double to extended is the identity exactly on the image of
`D2X`. -/
def Obligations.ReverseRoundTripOnlyOnImage : Prop :=
  ∀ x d0 x0 s, ∃ o o', exec (x2dOf x d0) s = .next { s with out := o } ∧
    exec (d2xOf o.dOut x0) { s with out := o } = .next { s with out := o' } ∧
    (o'.xOut = x ↔ ∃ d o'', exec (d2xOf d x0) s = .next { s with out := o'' } ∧ o''.xOut = x)

/-- R134 (the spec's inference): after one pass a value is stable, NaNs included. -/
def Obligations.StableAfterOnePass : Prop :=
  ∀ x d0 x1 d2 s, ∃ o1 o2 o3, exec (x2dOf x d0) s = .next { s with out := o1 } ∧
    exec (d2xOf o1.dOut x1) { s with out := o1 } = .next { s with out := o2 } ∧
    exec (x2dOf o2.xOut d2) { s with out := o2 } = .next { s with out := o3 } ∧ o3.dOut = o1.dOut

/-! ## Value decomposition and the serialized forms -/

/-- R33 (the spec's inference): the decomposition a collaborator reads off the port of a normal-class value
gives its magnitude, with the binary point after bit 63 or with the significand as an integer, and its
signed value. -/
def Obligations.DecompositionGivesMagnitude : Prop :=
  ∀ (x : XPort) (subExp : ℤ), 1 ≤ (xExp15 x).toNat → (xExp15 x).toNat ≤ 32766 →
    xMag subExp x = some ((integerSignificand x : ℚ) * 2 ^ integerExponent x) ∧
    xMag subExp x = some ((integerSignificand x : ℚ) / 2 ^ 63 * 2 ^ unbiasedExponent x) ∧
    (decomposedSign x = true ↔ xSign x = 1#1) ∧
    xVal x = some ((if decomposedSign x then -1 else 1) *
      ((integerSignificand x : ℚ) * 2 ^ integerExponent x))

/-- R41: the big-endian bytes, by index, are the port's bits from the top, and the buffer read as one
big-endian number is the port's value. -/
def Obligations.BigEndianLayout : Prop :=
  ∀ v : ExtendedValue, (encodeBE v).length = 10 ∧
    encodeBE v = [v.signExponent.extractLsb' 8 8, v.signExponent.extractLsb' 0 8] ++
      (List.range 8).map (fun i => v.fraction.extractLsb' (56 - 8 * i) 8) ∧
    (∀ i, i < 10 → (encodeBE v)[i]? = some ((portOfValue v).extractLsb' (72 - 8 * i) 8)) ∧
    bufferNumber (encodeBE v) = (portOfValue v).toNat

/-- R42: the little-endian bytes, by index, are the port's bits from the bottom, and the buffer is the
big-endian one reversed. -/
def Obligations.LittleEndianLayout : Prop :=
  ∀ v : ExtendedValue, (encodeLE v).length = 10 ∧ encodeLE v = (encodeBE v).reverse ∧
    ∀ i, i < 10 → (encodeLE v)[i]? = some ((portOfValue v).extractLsb' (8 * i) 8)

/-- R43: decoding is the exact inverse of encoding in either order, and every ten-byte buffer decodes. -/
def Obligations.ByteRoundTrip : Prop :=
  ∀ order : ByteOrder,
    (∀ v, codecDecode order (codecEncode order v) = .ok v) ∧
    (∀ buf : List Byte, bufferWf buf = true → ∃ v, codecDecode order buf = .ok v ∧ codecEncode order v = buf)

/-- R45 (the spec's inference): decoding with the other order is no error and reads the bytes reversed. -/
def Obligations.MixedOrderReadsReversed : Prop :=
  (∀ buf : List Byte, codecDecode .little buf = codecDecode .big buf.reverse) ∧
  (∀ v, ∃ w, codecDecode .little (encodeBE v) = .ok w ∧ codecDecode .big (encodeLE v) = .ok w ∧
    encodeBE w = (encodeBE v).reverse)

/-- R46: a buffer of any other size is an invalid argument at the codec's boundary, in either order. -/
def Obligations.WrongSizeBufferIsInvalidArgument : Prop :=
  ∀ (order : ByteOrder) (buf : List Byte), buf.length ≠ 10 → codecDecode order buf = .error .invalidArgument

/-! ## Finite and infinite runs -/

/-- R169: a run with no transaction after the listed ones is observed as exactly that many pairs, however long
one looks, and an endless run as one pair for each transaction, without end. -/
def Obligations.RunIsFiniteOrInfinite : Prop :=
  ∀ s : State,
    (s.later = .ended → ∀ k, (observe k s).length = min k s.pending.length) ∧
    (∀ n, s.later = .endless n → ∀ k, (observe k s).length = k)

/-- R168, R169: whatever endless sequence of transactions the environment chooses, from every state there is
the run that presents it, and each of its pairs is one function of that pair's inputs alone, settled by the
rules. -/
def Obligations.EveryEndlessChoiceRuns : Prop :=
  ∃ f : InPorts → OutPorts, (∀ p, PortsSettled p (f p)) ∧
    ∀ env : Nat → InPorts,
      (∀ s : State, ∃ run, run 0 = s ∧ IsEndlessRun env run) ∧
      (∀ run, IsEndlessRun env run → ∀ k, (run (k + 1)).inp = env k ∧ (run (k + 1)).out = f (env k))
end

