-- ==== Sys2Proof/Laws/Bits.lean ====
section
/-! SUPPORT. Concatenation and slicing as arithmetic on natural numbers, and from them the packing and
cutting of ports and transaction words. Later proofs cite these and leave the rest to `omega`. -/

namespace Sys2Proof.Machine

/-- Concatenation as a sum (00_scope.md R8). -/
theorem toNat_append_eq {n m : Nat} (x : BitVec n) (y : BitVec m) :
    (x ++ y).toNat = x.toNat * 2 ^ m + y.toNat := by
  rw [BitVec.toNat_append, ← Nat.shiftLeft_add_eq_or_of_lt y.isLt, Nat.shiftLeft_eq]

/-- A slice as quotient and remainder (00_scope.md R8). -/
theorem toNat_extract_eq {n : Nat} (x : BitVec n) (i k : Nat) :
    (x.extractLsb' i k).toNat = x.toNat / 2 ^ i % 2 ^ k := by
  rw [BitVec.extractLsb'_toNat, Nat.shiftRight_eq_div_pow]

/-- A bit as a remainder. -/
theorem getLsbD_iff_mod {n : Nat} (x : BitVec n) (i : Nat) :
    x.getLsbD i = true ↔ x.toNat / 2 ^ i % 2 = 1 := by
  rw [BitVec.getLsbD, Nat.testBit_eq_decide_div_mod_eq, decide_eq_true_iff]

/-! ### Ports -/

theorem xSign_toNat (x : XPort) : (xSign x).toNat = x.toNat / 2 ^ 79 % 2 ^ 1 := toNat_extract_eq x 79 1
theorem xExp15_toNat (x : XPort) : (xExp15 x).toNat = x.toNat / 2 ^ 64 % 2 ^ 15 := toNat_extract_eq x 64 15
theorem xFrac_toNat (x : XPort) : (xFrac x).toNat = x.toNat / 2 ^ 0 % 2 ^ 64 := toNat_extract_eq x 0 64
theorem dSign_toNat (d : DPort) : (dSign d).toNat = d.toNat / 2 ^ 63 % 2 ^ 1 := toNat_extract_eq d 63 1
theorem dExp_toNat (d : DPort) : (dExp d).toNat = d.toNat / 2 ^ 52 % 2 ^ 11 := toNat_extract_eq d 52 11
theorem dMan_toNat (d : DPort) : (dMan d).toNat = d.toNat / 2 ^ 0 % 2 ^ 52 := toNat_extract_eq d 0 52
theorem dLow_toNat (d : DPort) : (dLow d).toNat = d.toNat / 2 ^ 0 % 2 ^ 63 := toNat_extract_eq d 0 63

theorem packX_toNat (sg : BitVec 1) (e : BitVec 15) (f : BitVec 64) :
    (packX sg e f).toNat = sg.toNat * 2 ^ 79 + e.toNat * 2 ^ 64 + f.toNat := by
  have h := toNat_append_eq (sg ++ e) f
  rw [toNat_append_eq sg e] at h
  exact h.trans (by omega)

theorem packD_toNat (sg : BitVec 1) (e : BitVec 11) (m : BitVec 52) :
    (packD sg e m).toNat = sg.toNat * 2 ^ 63 + e.toNat * 2 ^ 52 + m.toNat := by
  have h := toNat_append_eq (sg ++ e) m
  rw [toNat_append_eq sg e] at h
  exact h.trans (by omega)

theorem assembleSub_toNat (sg : BitVec 1) (q : Nat) :
    (assembleSub sg q).toNat = sg.toNat * 2 ^ 63 + q % 2 ^ 63 := by
  have h := toNat_append_eq sg (BitVec.ofNat 63 q)
  rw [BitVec.toNat_ofNat] at h
  exact h

@[simp] theorem xSign_packX (sg : BitVec 1) (e : BitVec 15) (f : BitVec 64) : xSign (packX sg e f) = sg := by
  apply BitVec.eq_of_toNat_eq
  rw [xSign_toNat, packX_toNat]
  omega

@[simp] theorem xExp15_packX (sg : BitVec 1) (e : BitVec 15) (f : BitVec 64) : xExp15 (packX sg e f) = e := by
  apply BitVec.eq_of_toNat_eq
  rw [xExp15_toNat, packX_toNat]
  omega

@[simp] theorem xFrac_packX (sg : BitVec 1) (e : BitVec 15) (f : BitVec 64) : xFrac (packX sg e f) = f := by
  apply BitVec.eq_of_toNat_eq
  rw [xFrac_toNat, packX_toNat]
  omega

@[simp] theorem packX_fields (x : XPort) : packX (xSign x) (xExp15 x) (xFrac x) = x := by
  apply BitVec.eq_of_toNat_eq
  rw [packX_toNat, xSign_toNat, xExp15_toNat, xFrac_toNat]
  omega

@[simp] theorem dSign_packD (sg : BitVec 1) (e : BitVec 11) (m : BitVec 52) : dSign (packD sg e m) = sg := by
  apply BitVec.eq_of_toNat_eq
  rw [dSign_toNat, packD_toNat]
  omega

@[simp] theorem dExp_packD (sg : BitVec 1) (e : BitVec 11) (m : BitVec 52) : dExp (packD sg e m) = e := by
  apply BitVec.eq_of_toNat_eq
  rw [dExp_toNat, packD_toNat]
  omega

@[simp] theorem dMan_packD (sg : BitVec 1) (e : BitVec 11) (m : BitVec 52) : dMan (packD sg e m) = m := by
  apply BitVec.eq_of_toNat_eq
  rw [dMan_toNat, packD_toNat]
  omega

@[simp] theorem packD_fields (d : DPort) : packD (dSign d) (dExp d) (dMan d) = d := by
  apply BitVec.eq_of_toNat_eq
  rw [packD_toNat, dSign_toNat, dExp_toNat, dMan_toNat]
  omega

theorem dLow_packD_toNat (sg : BitVec 1) (e : BitVec 11) (m : BitVec 52) :
    (dLow (packD sg e m)).toNat = e.toNat * 2 ^ 52 + m.toNat := by
  rw [dLow_toNat, packD_toNat]
  omega

theorem dLow_toNat_fields (d : DPort) : (dLow d).toNat = (dExp d).toNat * 2 ^ 52 + (dMan d).toNat := by
  rw [dLow_toNat, dExp_toNat, dMan_toNat]
  omega

@[simp] theorem dSign_assembleSub (sg : BitVec 1) (q : Nat) : dSign (assembleSub sg q) = sg := by
  apply BitVec.eq_of_toNat_eq
  rw [dSign_toNat, assembleSub_toNat]
  omega

theorem dLow_assembleSub_toNat (sg : BitVec 1) {q : Nat} (h : q < 2 ^ 63) :
    (dLow (assembleSub sg q)).toNat = q := by
  rw [dLow_toNat, assembleSub_toNat]
  omega

/-- Two doubles are equal when their signs and their low 63 bits are. -/
theorem double_ext {d d' : DPort} (hs : dSign d = dSign d') (hl : dLow d = dLow d') : d = d' := by
  have hs := congrArg BitVec.toNat hs
  have hl := congrArg BitVec.toNat hl
  rw [dSign_toNat, dSign_toNat] at hs
  rw [dLow_toNat, dLow_toNat] at hl
  apply BitVec.eq_of_toNat_eq
  omega

/-- On the subnormal path a quotient below `2^52` is the mantissa of a subnormal (R94). -/
theorem assembleSub_eq_packD (sg : BitVec 1) {q : Nat} (h : q < 2 ^ 52) :
    assembleSub sg q = packD sg 0#11 (BitVec.ofNat 52 q) := by
  apply BitVec.eq_of_toNat_eq
  rw [assembleSub_toNat, packD_toNat, BitVec.toNat_ofNat, BitVec.toNat_ofNat]
  omega

/-- The carry of the subnormal path lands in the exponent field (R94, 90_conflicts.md C2). -/
theorem assembleSub_carry (sg : BitVec 1) : assembleSub sg (2 ^ 52) = packD sg 1#11 0#52 := by
  apply BitVec.eq_of_toNat_eq
  rw [assembleSub_toNat, packD_toNat, BitVec.toNat_ofNat, BitVec.toNat_ofNat]
  omega

theorem portOfValue_toNat (v : ExtendedValue) :
    (portOfValue v).toNat = v.signExponent.toNat * 2 ^ 64 + v.fraction.toNat :=
  toNat_append_eq v.signExponent v.fraction

@[simp] theorem valueOfPort_portOfValue (v : ExtendedValue) : valueOfPort (portOfValue v) = v := by
  cases v with
  | mk se fr =>
    simp only [valueOfPort, ExtendedValue.mk.injEq]
    constructor <;> apply BitVec.eq_of_toNat_eq <;> rw [toNat_extract_eq, portOfValue_toNat] <;>
      simp only <;> omega

@[simp] theorem portOfValue_valueOfPort (x : XPort) : portOfValue (valueOfPort x) = x := by
  apply BitVec.eq_of_toNat_eq
  rw [portOfValue_toNat, valueOfPort, toNat_extract_eq, toNat_extract_eq]
  omega

/-! ### Transaction words -/

theorem word_toNat (p : InPorts) :
    p.word.toNat = p.op.toNat * 2 ^ 144 + p.xIn.toNat * 2 ^ 64 + p.dIn.toNat := by
  have h := toNat_append_eq (p.op ++ p.xIn) p.dIn
  rw [toNat_append_eq p.op] at h
  rw [InPorts.word]
  refine h.trans ?_
  omega

theorem encode_x2d_toNat (sg : BitVec 1) (e : BitVec 15) (f : BitVec 64) (d : DPort) :
    (encode (.x2d sg e f d)).toNat
      = sg.toNat * 2 ^ 143 + e.toNat * 2 ^ 128 + f.toNat * 2 ^ 64 + d.toNat := by
  have h := toNat_append_eq (0#1 ++ sg ++ e ++ f) d
  rw [toNat_append_eq (0#1 ++ sg ++ e), toNat_append_eq (0#1 ++ sg), toNat_append_eq 0#1] at h
  have h0 : (0#1).toNat = 0 := rfl
  rw [encode]
  refine h.trans ?_
  omega

theorem encode_d2x_toNat (sg : BitVec 1) (e : BitVec 11) (m : BitVec 52) (x : XPort) :
    (encode (.d2x sg e m x)).toNat
      = 2 ^ 144 + x.toNat * 2 ^ 64 + sg.toNat * 2 ^ 63 + e.toNat * 2 ^ 52 + m.toNat := by
  have h := toNat_append_eq (1#1 ++ x ++ sg ++ e) m
  rw [toNat_append_eq (1#1 ++ x ++ sg), toNat_append_eq (1#1 ++ x), toNat_append_eq 1#1] at h
  have h1 : (1#1).toNat = 1 := rfl
  rw [encode]
  refine h.trans ?_
  omega

/-- The operation field of an encoding (R61). -/
theorem twOp_toNat (tw : TxWord) : (twOp tw).toNat = tw.toNat / 2 ^ 144 := by
  have h := toNat_extract_eq tw 144 1
  have := tw.isLt
  exact h.trans (by omega)

theorem twX_toNat (tw : TxWord) : (twX tw).toNat = tw.toNat / 2 ^ 64 % 2 ^ 80 := toNat_extract_eq tw 64 80
theorem twD_toNat (tw : TxWord) : (twD tw).toNat = tw.toNat / 2 ^ 0 % 2 ^ 64 := toNat_extract_eq tw 0 64

/-- The three ports of a transaction word put together again are the word (R60). -/
@[simp] theorem word_ofWord (tw : TxWord) : (InPorts.ofWord tw).word = tw := by
  apply BitVec.eq_of_toNat_eq
  have := tw.isLt
  rw [word_toNat, InPorts.ofWord, twOp_toNat, twX_toNat, twD_toNat]
  omega

theorem twOp_word (p : InPorts) : twOp p.word = p.op := by
  apply BitVec.eq_of_toNat_eq
  have := p.xIn.isLt
  have := p.dIn.isLt
  rw [twOp_toNat, word_toNat]
  omega

theorem twX_word (p : InPorts) : twX p.word = p.xIn := by
  apply BitVec.eq_of_toNat_eq
  have := p.dIn.isLt
  rw [twX_toNat, word_toNat]
  omega

theorem twD_word (p : InPorts) : twD p.word = p.dIn := by
  apply BitVec.eq_of_toNat_eq
  have := p.dIn.isLt
  rw [twD_toNat, word_toNat]
  omega

/-- The setting of the ports that a word made from ports stands for is that setting (R60). -/
@[simp] theorem ofWord_word (p : InPorts) : InPorts.ofWord p.word = p := by
  rw [InPorts.ofWord, twOp_word, twX_word, twD_word]

end Sys2Proof.Machine
end

