-- ==== Sys2Proof/Laws/Ops.lean ====
section
/-! SUPPORT. One specification lemma per shared operation (40_datapath_blocks.md R84, R88), which later
proofs cite instead of unfolding it. -/

namespace Sys2Proof.Machine

/-! ### exponent_normalizer -/

/-- Counting down from bit `k - 1` stops at the highest set bit below `k`. -/
theorem zerosFrom_spec (v : BitVec 64) (k : Nat) (h : v.toNat % 2 ^ k ≠ 0) :
    zerosFrom k v < k ∧ 2 ^ (k - 1 - zerosFrom k v) ≤ v.toNat % 2 ^ k ∧
      v.toNat % 2 ^ k < 2 ^ (k - zerosFrom k v) := by
  induction k with
  | zero => simp [Nat.mod_one] at h
  | succ k ih =>
    have hsplit : v.toNat % 2 ^ (k + 1) = v.toNat % 2 ^ k + 2 ^ k * (v.toNat / 2 ^ k % 2) := by
      rw [pow_succ, Nat.mod_mul]
    have hlt : v.toNat % 2 ^ k < 2 ^ k := Nat.mod_lt _ (by positivity)
    by_cases hb : v.getLsbD k = true
    · have h1 := (getLsbD_iff_mod v k).1 hb
      have hz : zerosFrom (k + 1) v = 0 := by simp only [zerosFrom, hb, if_true]
      rw [hz, hsplit, h1]
      refine ⟨by omega, ?_, ?_⟩
      · simp
      · rw [Nat.sub_zero, pow_succ]; omega
    · have h0 : v.toNat / 2 ^ k % 2 = 0 := by
        have := mt (getLsbD_iff_mod v k).2 hb
        omega
      replace hsplit : v.toNat % 2 ^ (k + 1) = v.toNat % 2 ^ k := by rw [hsplit, h0]; omega
      have hz : zerosFrom (k + 1) v = 1 + zerosFrom k v := by simp [zerosFrom, hb]
      obtain ⟨h1, h2, h3⟩ := ih (hsplit ▸ h)
      rw [hz, hsplit]
      refine ⟨by omega, ?_, ?_⟩
      · rwa [show k + 1 - 1 - (1 + zerosFrom k v) = k - 1 - zerosFrom k v by omega]
      · rwa [show k + 1 - (1 + zerosFrom k v) = k - zerosFrom k v by omega]

/-- What `normalize` does to a nonzero word (R84): no set bit is lost and the top bit is set. -/
theorem normalize_spec {v : BitVec 64} (h : v ≠ 0#64) :
    (normalize v).1 ≤ 63 ∧ (normalize v).2.toNat = v.toNat * 2 ^ (normalize v).1 ∧
      2 ^ 63 ≤ (normalize v).2.toNat := by
  have hv : v.toNat % 2 ^ 64 = v.toNat := Nat.mod_eq_of_lt v.isLt
  have h0 : v.toNat ≠ 0 := fun h0 => h (BitVec.eq_of_toNat_eq h0)
  obtain ⟨h1, h2, h3⟩ := zerosFrom_spec v 64 (by rwa [hv])
  rw [hv] at h2 h3
  change clz64 v < 64 at h1
  change 2 ^ (64 - 1 - clz64 v) ≤ _ at h2
  change _ < 2 ^ (64 - clz64 v) at h3
  have hpos : 0 < 2 ^ clz64 v := by positivity
  have hup : v.toNat * 2 ^ clz64 v < 2 ^ 64 := by
    calc v.toNat * 2 ^ clz64 v < 2 ^ (64 - clz64 v) * 2 ^ clz64 v := Nat.mul_lt_mul_of_pos_right h3 hpos
      _ = 2 ^ 64 := by rw [← pow_add]; congr 1; omega
  have hlo : 2 ^ 63 ≤ v.toNat * 2 ^ clz64 v := by
    calc 2 ^ 63 = 2 ^ (64 - 1 - clz64 v) * 2 ^ clz64 v := by rw [← pow_add]; congr 1; omega
      _ ≤ _ := Nat.mul_le_mul_right _ h2
  have hF : (normalize v).2.toNat = v.toNat * 2 ^ clz64 v := by
    rw [normalize, shl64, BitVec.toNat_ofNat, Nat.mod_eq_of_lt hup]
  exact ⟨by change clz64 v ≤ 63; omega, hF, hF ▸ hlo⟩

/-- Only one shift puts the top bit up (R84): the shift amount and the word are those of `normalize`. -/
theorem normalize_unique {v : BitVec 64} {nz F : Nat} (hF : F = v.toNat * 2 ^ nz) (hlo : 2 ^ 63 ≤ F)
    (hup : F < 2 ^ 64) : v ≠ 0#64 ∧ (normalize v).1 = nz ∧ (normalize v).2.toNat = F := by
  have hv : v ≠ 0#64 := by
    rintro rfl
    rw [BitVec.toNat_ofNat] at hF
    omega
  obtain ⟨_, hG, hGlo⟩ := normalize_spec hv
  have hGup := (normalize v).2.isLt
  have hnz : (normalize v).1 = nz := by
    rcases lt_trichotomy (normalize v).1 nz with hlt | heq | hgt
    · have : 2 * 2 ^ (normalize v).1 ≤ 2 ^ nz := by
        rw [← pow_succ']; exact Nat.pow_le_pow_right (by omega) hlt
      have := Nat.mul_le_mul_left v.toNat this
      rw [← hF, Nat.mul_left_comm, ← hG] at this
      omega
    · exact heq
    · have : 2 * 2 ^ nz ≤ 2 ^ (normalize v).1 := by
        rw [← pow_succ']; exact Nat.pow_le_pow_right (by omega) hgt
      have := Nat.mul_le_mul_left v.toNat this
      rw [← hG, Nat.mul_left_comm, ← hF] at this
      omega
  exact ⟨hv, hnz, by rw [hG, hnz, hF]⟩

/-! ### significand_rounder -/

/-- What `rneShift` answers (R88): within half a unit of the quotient, and even at exactly half. The bounds
are scaled by 2 so that they stand on natural numbers. -/
theorem rneShift_spec (F : Nat) {sh : Nat} (h : 1 ≤ sh) :
    2 * (rneShift F sh * 2 ^ sh) ≤ 2 * F + 2 ^ sh ∧ 2 * F ≤ 2 * (rneShift F sh * 2 ^ sh) + 2 ^ sh ∧
      (2 * (rneShift F sh * 2 ^ sh) = 2 * F + 2 ^ sh → rneShift F sh % 2 = 0) ∧
      (2 * F = 2 * (rneShift F sh * 2 ^ sh) + 2 ^ sh → rneShift F sh % 2 = 0) := by
  obtain ⟨k, rfl⟩ : ∃ k, sh = k + 1 := ⟨sh - 1, by omega⟩
  have hD : 2 ^ (k + 1) = 2 * 2 ^ k := by rw [pow_succ]; omega
  have hdiv := Nat.div_add_mod F (2 ^ (k + 1))
  have hlt : F % 2 ^ (k + 1) < 2 ^ (k + 1) := Nat.mod_lt _ (by positivity)
  have hr : rneShift F (k + 1) = F / 2 ^ (k + 1) +
      (if 2 ^ k < F % 2 ^ (k + 1) ∨ (F % 2 ^ (k + 1) = 2 ^ k ∧ F / 2 ^ (k + 1) % 2 = 1) then 1 else 0) := rfl
  rw [hr]
  generalize F / 2 ^ (k + 1) = kept at *
  generalize F % 2 ^ (k + 1) = rem at *
  rw [Nat.mul_comm] at hdiv
  split <;> simp only [Nat.add_mul, Nat.one_mul, Nat.add_zero] <;>
    generalize kept * 2 ^ (k + 1) = kD at * <;> omega

/-- The quotient is the unique integer with those bounds. -/
theorem rneShift_unique {F sh q : Nat} (h : 1 ≤ sh) (h1 : 2 * (q * 2 ^ sh) ≤ 2 * F + 2 ^ sh)
    (h2 : 2 * F ≤ 2 * (q * 2 ^ sh) + 2 ^ sh)
    (h3 : 2 * (q * 2 ^ sh) = 2 * F + 2 ^ sh ∨ 2 * F = 2 * (q * 2 ^ sh) + 2 ^ sh → q % 2 = 0) :
    rneShift F sh = q := by
  obtain ⟨g1, g2, g3, g4⟩ := rneShift_spec F h
  generalize rneShift F sh = r at *
  have hpos : 0 < 2 ^ sh := by positivity
  rcases lt_trichotomy r q with hlt | heq | hgt
  · have hm : r * 2 ^ sh + 2 ^ sh ≤ q * 2 ^ sh := by
      rw [← Nat.succ_mul]; exact Nat.mul_le_mul_right _ hlt
    have hq : q * 2 ^ sh = (r + 1) * 2 ^ sh := by rw [Nat.succ_mul]; omega
    have := Nat.eq_of_mul_eq_mul_right hpos hq
    have := g4 (by omega)
    have := h3 (by omega)
    omega
  · exact heq
  · have hm : q * 2 ^ sh + 2 ^ sh ≤ r * 2 ^ sh := by
      rw [← Nat.succ_mul]; exact Nat.mul_le_mul_right _ hgt
    have hq : r * 2 ^ sh = (q + 1) * 2 ^ sh := by rw [Nat.succ_mul]; omega
    have := Nat.eq_of_mul_eq_mul_right hpos hq
    have := g3 (by omega)
    have := h3 (by omega)
    omega

/-- A word below half of `2^sh` rounds to 0 (R88: a shift of 65 or more of a 64-bit word). -/
theorem rneShift_of_small {F sh : Nat} (h : 1 ≤ sh) (hF : 2 * F < 2 ^ sh) : rneShift F sh = 0 :=
  rneShift_unique h (by omega) (by omega) (by omega)

/-- A multiple of `2^sh` is not rounded. -/
theorem rneShift_exact {sh : Nat} (h : 1 ≤ sh) (q : Nat) : rneShift (q * 2 ^ sh) sh = q := by
  have hpos : 0 < 2 ^ sh := by positivity
  exact rneShift_unique h (by omega) (by omega) (by omega)

end Sys2Proof.Machine
end

