-- ==== Sys2Proof/Laws/State.lean ====
section
/-! SUPPORT. One lemma per field of State per update, each true by `rfl`, and the cases of the
environment's move. -/

namespace Sys2Proof.Machine

@[simp] theorem drive_inp (s : State) (o : OutPorts) : (s.drive o).inp = s.inp := rfl
@[simp] theorem drive_out (s : State) (o : OutPorts) : (s.drive o).out = o := rfl
@[simp] theorem drive_pending (s : State) (o : OutPorts) : (s.drive o).pending = s.pending := rfl

@[simp] theorem drive_later (s : State) (o : OutPorts) : (s.drive o).later = s.later := rfl

@[simp] theorem enqueueFirst_inp (s : State) (p : InPorts) : (s.enqueueFirst p).inp = s.inp := rfl
@[simp] theorem enqueueFirst_out (s : State) (p : InPorts) : (s.enqueueFirst p).out = s.out := rfl
@[simp] theorem enqueueFirst_pending (s : State) (p : InPorts) :
    (s.enqueueFirst p).pending = p :: s.pending := rfl
@[simp] theorem enqueueFirst_later (s : State) (p : InPorts) : (s.enqueueFirst p).later = s.later := rfl

/-- A listed transaction comes to the input ports, and nothing else changes. -/
theorem present_of_cons {s : State} {p : InPorts} {rest : List InPorts} (h : s.pending = p :: rest) :
    s.present = some { s with inp := p, pending := rest } := by
  simp only [State.present, h]

/-- With none listed, the next word of an endless run comes to the input ports. -/
theorem present_of_endless {s : State} {k : Nat} (h : s.pending = []) (hk : s.later = .endless k) :
    s.present = some { s with inp := InPorts.ofWord (Config.environmentWord k), later := .endless (k + 1) } := by
  simp only [State.present, h, hk]

/-- The run is over: the environment makes no move. -/
theorem present_of_ended {s : State} (h : s.pending = []) (he : s.later = .ended) : s.present = none := by
  simp only [State.present, h, he]

/-- The run is over exactly when none is listed and none follows. -/
theorem present_eq_none {s : State} : s.present = none ↔ s.pending = [] ∧ s.later = .ended := by
  cases h : s.pending with
  | cons p rest => simp [present_of_cons h]
  | nil =>
    cases he : s.later with
    | ended => simp [present_of_ended h he]
    | endless k => simp [present_of_endless h he]

/-- The environment's move never touches the output ports. -/
theorem present_out {s t : State} (h : s.present = some t) : t.out = s.out := by
  unfold State.present at h
  split at h
  · cases h; rfl
  · split at h <;> cases h
    rfl

/-- The environment's move takes at most the first listed transaction. -/
theorem present_pending {s t : State} (h : s.present = some t) : t.pending = s.pending.tail := by
  unfold State.present at h
  split at h
  · rename_i p rest hp
    cases h
    rw [hp]
    rfl
  · split at h <;> cases h
    rename_i hp _ _ _
    rw [hp]
    rfl

@[simp] theorem presented_zero (s : State) : s.presented 0 = [] := by
  unfold State.presented
  split <;> simp

/-- What will be presented from here begins with what the environment's move puts on the ports. -/
theorem presented_succ {s t : State} (k : Nat) (h : s.present = some t) :
    s.presented (k + 1) = t.inp :: t.presented k := by
  unfold State.present at h
  split at h
  · rename_i p rest hp
    cases h
    cases hl : s.later <;> simp [State.presented, hp, hl]
  · split at h <;> cases h
    rename_i hp _ n hl
    simp only [State.presented, hp, hl, List.take_nil, List.nil_append, List.length_nil, Nat.sub_zero,
      List.range_succ_eq_map, List.map_cons, List.map_map, Nat.add_zero, List.cons.injEq, true_and]
    refine List.map_congr_left fun i _ => ?_
    simp only [Function.comp_apply, Nat.succ_eq_add_one]
    rw [show n + (i + 1) = n + 1 + i by omega]

/-- After the end of the run nothing is presented. -/
theorem presented_of_present_none {s : State} (k : Nat) (h : s.present = none) : s.presented k = [] := by
  obtain ⟨hp, hl⟩ := present_eq_none.1 h
  simp [State.presented, hp, hl]

end Sys2Proof.Machine
end

