-- ==== Sys2Proof/Laws/Exec.lean ====
section
/-! SUPPORT. What `exec` and `step` answer, said once; the paths of the two operations as equations that
later proofs cite instead of unfolding the datapath. -/

namespace Sys2Proof.Machine

/-- The open parameter is legal (00_scope.md R7). -/
theorem dNanMant_ne_zero : Config.dNanMant ≠ 0#52 := by
  unfold Config.dNanMant
  split
  · decide
  · assumption

/-- The other open parameter is legal (00_scope.md R7). -/
theorem xSubExp_wf : xSubExpWf Config.xSubExp = true := by
  unfold Config.xSubExp xSubExpWf
  split <;> decide

@[simp] theorem x2dOutputs_dOut (nan : BitVec 52) (sg : BitVec 1) (exp15 : BitVec 15) (fr : BitVec 64) :
    (x2dOutputs nan sg exp15 fr).dOut = x2dResult nan sg exp15 fr := rfl
@[simp] theorem x2dOutputs_xOut (nan : BitVec 52) (sg : BitVec 1) (exp15 : BitVec 15) (fr : BitVec 64) :
    (x2dOutputs nan sg exp15 fr).xOut = 0#80 := rfl
@[simp] theorem x2dOutputs_cls (nan : BitVec 52) (sg : BitVec 1) (exp15 : BitVec 15) (fr : BitVec 64) :
    (x2dOutputs nan sg exp15 fr).cls = bcdX exp15 fr := rfl
@[simp] theorem d2xOutputs_dOut (sg : BitVec 1) (dexp : BitVec 11) (dman : BitVec 52) :
    (d2xOutputs sg dexp dman).dOut = 0#64 := rfl
@[simp] theorem d2xOutputs_xOut (sg : BitVec 1) (dexp : BitVec 11) (dman : BitVec 52) :
    (d2xOutputs sg dexp dman).xOut = d2xResult sg dexp dman := rfl
@[simp] theorem d2xOutputs_cls (sg : BitVec 1) (dexp : BitVec 11) (dman : BitVec 52) :
    (d2xOutputs sg dexp dman).cls = bcdD dexp dman := rfl

/-- The output ports of an instruction: a function of its operand alone (00_scope.md R12). -/
def outputsOf : Instr → OutPorts
  | .x2d sg exp15 fr _ => x2dOutputs Config.dNanMant sg exp15 fr
  | .d2x sg dexp dman _ => d2xOutputs sg dexp dman

theorem exec_x2d (sg : BitVec 1) (exp15 : BitVec 15) (fr : BitVec 64) (d : DPort) (s : State) :
    exec (.x2d sg exp15 fr d) s = .next { s with out := x2dOutputs Config.dNanMant sg exp15 fr } := rfl

theorem exec_d2x (sg : BitVec 1) (dexp : BitVec 11) (dman : BitVec 52) (x : XPort) (s : State) :
    exec (.d2x sg dexp dman x) s = .next { s with out := d2xOutputs sg dexp dman } := rfl

/-- Everything a transaction does: it drives the output ports with `outputsOf`. -/
theorem exec_eq (i : Instr) (s : State) : exec i s = .next { s with out := outputsOf i } := by
  cases i <;> rfl

/-- Inversion: a next state differs in the output ports only, and they are `outputsOf`. -/
theorem exec_next {i : Instr} {s s' : State} (h : exec i s = .next s') : s' = { s with out := outputsOf i } := by
  rw [exec_eq] at h
  exact (Host.Outcome.next.inj h).symm

/-- A step of a run that goes on: the environment's move, then the transaction on the ports. -/
theorem step_of_present {s t : State} (h : s.present = some t) :
    step s = .next { t with out := outputsOf (decode t.inp.word) } := by
  rw [step, h]
  exact exec_eq _ _

/-- A step after the end of the run. -/
theorem step_of_over {s : State} (h : s.present = none) : step s = .next s := by
  rw [step, h]

/-- Everything a step does: one transaction of the run, or nothing when the run is over. -/
theorem step_cases (s : State) :
    (∃ t, s.present = some t ∧ step s = .next { t with out := outputsOf (decode t.inp.word) }) ∨
      (s.present = none ∧ step s = .next s) := by
  cases h : s.present with
  | some t => exact .inl ⟨t, rfl, step_of_present h⟩
  | none => exact .inr ⟨rfl, step_of_over h⟩

/-- A step with a transaction listed. -/
theorem step_of_cons {s : State} {p : InPorts} {rest : List InPorts} (h : s.pending = p :: rest) :
    step s = .next { s with inp := p, out := outputsOf (decode p.word), pending := rest } :=
  step_of_present (present_of_cons h)

/-- A step once placed first: the setting `p` comes to the ports and its transaction is run. -/
theorem step_enqueueFirst (s : State) (p : InPorts) :
    step (s.enqueueFirst p) = .next { s with inp := p, out := outputsOf (decode p.word) } :=
  step_of_cons (enqueueFirst_pending s p)

/-- What is observed of a run that goes on. -/
theorem observe_of_present {s t : State} (k : Nat) (h : s.present = some t) :
    observe (k + 1) s = (t.inp, outputsOf (decode t.inp.word)) ::
      observe k { t with out := outputsOf (decode t.inp.word) } := by
  simp only [observe, step_of_present h, h]

/-- Nothing is observed after the end of the run. -/
theorem observe_of_over {s : State} (k : Nat) (h : s.present = none) : observe k s = [] := by
  cases k with
  | zero => rfl
  | succ k => simp only [observe, h]

/-! ### Decoding a setting of the ports -/

theorem decode_word_x2d {p : InPorts} (h : p.op = 0#1) : decode p.word = x2dOf p.xIn p.dIn := by
  have hp := word_toNat p
  have hd := p.dIn.isLt
  rw [decode, twOp_word, if_pos h, twD_word, x2dOf]
  congr 1 <;> apply BitVec.eq_of_toNat_eq <;> rw [toNat_extract_eq, hp]
  · rw [xSign_toNat]; omega
  · rw [xExp15_toNat]; omega
  · rw [xFrac_toNat]; omega

theorem decode_word_d2x {p : InPorts} (h : p.op = 1#1) : decode p.word = d2xOf p.dIn p.xIn := by
  have hp := word_toNat p
  rw [decode, twOp_word, if_neg (by rw [h]; decide), twX_word, d2xOf]
  congr 1 <;> apply BitVec.eq_of_toNat_eq <;> rw [toNat_extract_eq, hp]
  · rw [dSign_toNat]; omega
  · rw [dExp_toNat]; omega
  · rw [dMan_toNat]; omega

/-! ### The paths of X2D -/

theorem x2dResult_infinity (nan : BitVec 52) (sg : BitVec 1) :
    x2dResult nan sg 0x7FFF#15 0#64 = packD sg 2047#11 0#52 := rfl

theorem x2dResult_nan (nan : BitVec 52) (sg : BitVec 1) {fr : BitVec 64} (h : fr ≠ 0#64) :
    x2dResult nan sg 0x7FFF#15 fr = packD sg 2047#11 nan := by
  have hf : frZero fr = false := by simp [frZero, h]
  simp [x2dResult, x2dPath, expMaxX, hf]

theorem x2dResult_zero (nan : BitVec 52) (sg : BitVec 1) {exp15 : BitVec 15} (h : exp15 ≠ 0x7FFF#15) :
    x2dResult nan sg exp15 0#64 = packD sg 0#11 0#52 := by
  have he : expMaxX exp15 = false := by simp [expMaxX, h]
  simp [x2dResult, x2dPath, he, frZero]

/-- The subnormal path in terms of any shift that puts the top bit up (R114, R116). -/
theorem x2dResult_sub (nan : BitVec 52) (sg : BitVec 1) {exp15 : BitVec 15} {fr : BitVec 64} {nz F : Nat}
    {e : ℤ} (h : exp15 ≠ 0x7FFF#15) (hF : F = fr.toNat * 2 ^ nz) (hlo : 2 ^ 63 ≤ F) (hup : F < 2 ^ 64)
    (he : e = (exp15.toNat : ℤ) + 1023 - 16383 - nz) (hsub : e ≤ 0) :
    x2dResult nan sg exp15 fr = assembleSub sg (rneShift F (12 - e).toNat) ∧ x2dPath exp15 fr = .sub ∧
      x2dExp exp15 fr = e ∧ x2dSubQ exp15 fr = rneShift F (12 - e).toNat := by
  obtain ⟨hfr, hnz, hval⟩ := normalize_unique hF hlo hup
  have hm : expMaxX exp15 = false := by simp [expMaxX, h]
  have hz : frZero fr = false := by simp [frZero, hfr]
  have hx : x2dExp exp15 fr = e := by
    rw [x2dExp, hnz, he]
    rfl
  have hp : x2dPath exp15 fr = .sub := by
    change workingExp exp15 (normalize fr).1 = e at hx
    simp [x2dPath, hm, hz, hx, hsub]
  have hq : x2dSubQ exp15 fr = rneShift F (12 - e).toNat := by rw [x2dSubQ, hval, hx]
  exact ⟨by simp only [x2dResult, hp, hq], hp, hx, hq⟩

/-- The normal path in terms of any shift that puts the top bit up (R114, R118). -/
theorem x2dResult_norm (nan : BitVec 52) (sg : BitVec 1) {exp15 : BitVec 15} {fr : BitVec 64} {nz F : Nat}
    {e : ℤ} (h : exp15 ≠ 0x7FFF#15) (hF : F = fr.toNat * 2 ^ nz) (hlo : 2 ^ 63 ≤ F) (hup : F < 2 ^ 64)
    (he : e = (exp15.toNat : ℤ) + 1023 - 16383 - nz) (hnorm : 1 ≤ e) :
    x2dResult nan sg exp15 fr = assembleNorm sg e (rneShift F 11) ∧ x2dPath exp15 fr = .norm ∧
      x2dExp exp15 fr = e ∧ x2dNormQ fr = rneShift F 11 := by
  obtain ⟨hfr, hnz, hval⟩ := normalize_unique hF hlo hup
  have hm : expMaxX exp15 = false := by simp [expMaxX, h]
  have hz : frZero fr = false := by simp [frZero, hfr]
  have hx : x2dExp exp15 fr = e := by
    rw [x2dExp, hnz, he]
    rfl
  have hp : x2dPath exp15 fr = .norm := by
    change workingExp exp15 (normalize fr).1 = e at hx
    simp only [x2dPath, hm, hz, hx]
    simp
    omega
  have hq : x2dNormQ fr = rneShift F 11 := by rw [x2dNormQ, hval]
  exact ⟨by simp only [x2dResult, hp, hx, hq], hp, hx, hq⟩

/-- Every operand on the finite path has such a shift (R84). -/
theorem exists_normalized {fr : BitVec 64} (h : fr ≠ 0#64) :
    ∃ nz F : Nat, F = fr.toNat * 2 ^ nz ∧ 2 ^ 63 ≤ F ∧ F < 2 ^ 64 ∧ nz ≤ 63 := by
  obtain ⟨h1, h2, h3⟩ := normalize_spec h
  exact ⟨_, _, h2, h3, (normalize fr).2.isLt, h1⟩

/-! ### The five cases of D2X -/

theorem d2xFields_zero : d2xFields 0#11 0#52 = (0#15, 0#64) := rfl

theorem d2xFields_subnormal {dman : BitVec 52} (h : dman ≠ 0#52) : d2xFields 0#11 dman = d2xSubnormal dman := by
  have hz : manZero dman = false := by simp [manZero, h]
  simp [d2xFields, expZeroD, hz]

theorem d2xFields_infinity : d2xFields 2047#11 0#52 = (0x7FFF#15, 0#64) := rfl

theorem d2xFields_nan {dman : BitVec 52} (h : dman ≠ 0#52) :
    d2xFields 2047#11 dman = (0x7FFF#15, 0xFFFFFFFFFFFFFFFF#64) := by
  have hz : manZero dman = false := by simp [manZero, h]
  simp [d2xFields, expZeroD, expMaxD, hz]

theorem d2xFields_normal {dexp : BitVec 11} (dman : BitVec 52) (h0 : dexp ≠ 0#11) (h1 : dexp ≠ 2047#11) :
    d2xFields dexp dman = d2xNormal dexp dman := by
  have hz : expZeroD dexp = false := by simp [expZeroD, h0]
  have hm : expMaxD dexp = false := by simp [expMaxD, h1]
  simp [d2xFields, hz, hm]

end Sys2Proof.Machine
end

