-- ==== Sys2Proof/Laws/PerInstr.lean ====
section
/-! SUPPORT. One lemma per constructor of `Instr` for each family of LAWS.json. -/

namespace Sys2Proof.Laws.OpField

/-- The operation field of the encoded word selects the operation, whatever the operands (30_encoding.md
R61, R65). -/
def Statement : Instr → Prop
  | .x2d sign exp15 fr dIgnored => twOp (encode (.x2d sign exp15 fr dIgnored)) = 0#1
  | .d2x dsign dexp dman xIgnored => twOp (encode (.d2x dsign dexp dman xIgnored)) = 1#1

theorem x2d (sign : BitVec 1) (exp15 : BitVec 15) (fr : BitVec 64) (dIgnored : DPort) :
    Statement (.x2d sign exp15 fr dIgnored) := by
  have h := Machine.encode_x2d_toNat sign exp15 fr dIgnored
  have := fr.isLt
  have := dIgnored.isLt
  exact BitVec.eq_of_toNat_eq (by rw [Machine.twOp_toNat, h, BitVec.toNat_ofNat]; omega)

theorem d2x (dsign : BitVec 1) (dexp : BitVec 11) (dman : BitVec 52) (xIgnored : XPort) :
    Statement (.d2x dsign dexp dman xIgnored) := by
  have h := Machine.encode_d2x_toNat dsign dexp dman xIgnored
  have := xIgnored.isLt
  have := dman.isLt
  exact BitVec.eq_of_toNat_eq (by rw [Machine.twOp_toNat, h, BitVec.toNat_ofNat]; omega)

end Sys2Proof.Laws.OpField
end

