-- ==== Sys2Proof/Laws/Values.lean ====
section
/-! SUPPORT. Finite double magnitudes as whole numbers of units of `2^(-1074)` (00_scope.md R16), their
order, and a criterion for `IsRneD` (R18) that looks at a double's two neighbours only. -/

namespace Sys2Proof.Machine

/-- The magnitude of the double whose low 63 bits are `n`, in units of the smallest subnormal (R16). -/
def ulps (n : Nat) : Nat :=
  if n < 2 ^ 52 then n else (2 ^ 52 + n % 2 ^ 52) * 2 ^ (n / 2 ^ 52 - 1)

theorem ulps_of_le {n : Nat} (h : n ≤ 2 ^ 52) : ulps n = n := by
  unfold ulps
  split
  · rfl
  · have : n = 2 ^ 52 := by omega
    subst this
    norm_num

/-- A significand `q` of 53 bits, or `2^53` after a carry, in the binade `k` (R91). -/
theorem ulps_binade (k : Nat) {q : Nat} (h1 : 2 ^ 52 ≤ q) (h2 : q ≤ 2 ^ 53) :
    ulps (k * 2 ^ 52 + q) = q * 2 ^ k := by
  unfold ulps
  rw [if_neg (by omega)]
  rcases eq_or_lt_of_le h2 with rfl | hlt
  · rw [show (k * 2 ^ 52 + 2 ^ 53) % 2 ^ 52 = 0 by omega,
      show (k * 2 ^ 52 + 2 ^ 53) / 2 ^ 52 - 1 = k + 1 by omega, pow_succ]
    ring
  · rw [show (k * 2 ^ 52 + q) % 2 ^ 52 = q - 2 ^ 52 by omega,
      show (k * 2 ^ 52 + q) / 2 ^ 52 - 1 = k by omega, show 2 ^ 52 + (q - 2 ^ 52) = q by omega]

theorem ulps_lt_succ (n : Nat) : ulps n < ulps (n + 1) := by
  by_cases h : n < 2 ^ 52
  · rw [ulps_of_le h.le, ulps_of_le h]
    omega
  · obtain ⟨k, q, hn, h1, h2⟩ : ∃ k q, n = k * 2 ^ 52 + q ∧ 2 ^ 52 ≤ q ∧ q < 2 ^ 53 :=
      ⟨n / 2 ^ 52 - 1, 2 ^ 52 + n % 2 ^ 52, by omega, by omega, by omega⟩
    subst hn
    rw [ulps_binade k h1 h2.le, Nat.add_assoc, ulps_binade k (by omega) (by omega)]
    have : 0 < 2 ^ k := by positivity
    rw [Nat.succ_mul]
    omega

theorem ulps_strictMono : StrictMono ulps := strictMono_nat_of_lt_succ ulps_lt_succ

/-- A double is finite when its low 63 bits lie below the infinity pattern. -/
theorem finite_iff_dLow (d : DPort) : dExp d ≠ 2047#11 ↔ (dLow d).toNat < 0x7FF0000000000000 := by
  rw [dLow_toNat_fields, not_iff_comm, ← BitVec.toNat_inj]
  have := (dExp d).isLt
  have := (dMan d).isLt
  have h : (2047#11).toNat = 2047 := rfl
  omega

/-- The magnitude of a finite double in units (R16). -/
theorem dMag_eq_ulps {d : DPort} (h : dExp d ≠ 2047#11) :
    dMag d = some ((ulps (dLow d).toNat : ℚ) * 2 ^ (-1074 : ℤ)) := by
  have hm := (dMan d).isLt
  rw [dMag, if_neg h, dLow_toNat_fields]
  split
  · rename_i h0
    rw [h0]
    rw [show (0#11).toNat * 2 ^ 52 + (dMan d).toNat = (dMan d).toNat by simp, ulps_of_le hm.le]
  · rename_i h0
    have hpos : (dExp d).toNat ≠ 0 := fun hz => h0 (BitVec.eq_of_toNat_eq hz)
    obtain ⟨k, hk⟩ : ∃ k, (dExp d).toNat = k + 1 := ⟨(dExp d).toNat - 1, by omega⟩
    rw [hk, show (k + 1) * 2 ^ 52 + (dMan d).toNat = k * 2 ^ 52 + (2 ^ 52 + (dMan d).toNat) by omega,
      ulps_binade k (by omega) (by omega)]
    congr 1
    simp only [Nat.cast_mul, Nat.cast_add, Nat.cast_pow, Nat.cast_ofNat, Nat.cast_one]
    rw [show ((k : ℤ) + 1 - 1023) = (k : ℤ) + 52 + (-1074) by ring, zpow_add₀ (by norm_num),
      zpow_add₀ (by norm_num), zpow_natCast, ← mul_assoc]
    congr 1
    rw [show (2 : ℚ) ^ (52 : ℤ) = 2 ^ 52 from zpow_natCast 2 52]
    ring

theorem dMag_eq_none {d : DPort} (h : dExp d = 2047#11) : dMag d = none := by
  rw [dMag, if_pos h]

/-- The magnitude determines the low 63 bits of a finite double (R16). -/
theorem dLow_eq_of_dMag_eq {d d' : DPort} {m : ℚ} (h : dMag d = some m) (h' : dMag d' = some m) :
    dLow d = dLow d' := by
  have hf : dExp d ≠ 2047#11 := fun hc => by rw [dMag_eq_none hc] at h; cases h
  have hf' : dExp d' ≠ 2047#11 := fun hc => by rw [dMag_eq_none hc] at h'; cases h'
  rw [dMag_eq_ulps hf] at h
  rw [dMag_eq_ulps hf'] at h'
  have he := (Option.some.inj h).trans (Option.some.inj h').symm
  have he := mul_right_cancel₀ (by positivity : (2 : ℚ) ^ (-1074 : ℤ) ≠ 0) he
  exact BitVec.eq_of_toNat_eq (ulps_strictMono.injective (by exact_mod_cast he))

/-- The lowest mantissa bit of a double is the parity of its low 63 bits. -/
theorem getLsbD_zero_iff (d : DPort) : d.getLsbD 0 = false ↔ (dLow d).toNat % 2 = 0 := by
  rw [← Bool.not_eq_true, getLsbD_iff_mod, dLow_toNat]
  omega

/-- `overflowBound` in units of the smallest subnormal. -/
theorem overflowBound_eq : overflowBound = ((2 ^ 54 - 1) * 2 ^ 2044 : ℚ) * 2 ^ (-1074 : ℤ) := by
  unfold overflowBound
  rw [← zpow_natCast (2 : ℚ) 1024, ← zpow_natCast (2 : ℚ) 970, ← zpow_natCast (2 : ℚ) 2044, mul_assoc,
    ← zpow_add₀ (by norm_num), show ((1024 : ℕ) : ℤ) = ((54 : ℕ) : ℤ) + 970 by norm_num,
    zpow_add₀ (by norm_num), zpow_natCast, show ((2044 : ℕ) : ℤ) + -1074 = 970 by norm_num,
    show ((970 : ℕ) : ℤ) = 970 by norm_num]
  ring

/-- A criterion for `IsRneD` below the overflow bound: with `r` the double's magnitude and `V` the value in
units, `V` is no further above `r` than half the gap to the next double and no further below it than half
the gap to the previous one, and the double is even where `V` is exactly halfway. -/
theorem isRneD_of_neighbours {V : ℚ} {d : DPort} {n : Nat} (hn : n = (dLow d).toNat)
    (hfin : n < 0x7FF0000000000000) (hb : V * 2 ^ (-1074 : ℤ) < overflowBound)
    (hup : 2 * (V - ulps n) ≤ (ulps (n + 1) : ℚ) - ulps n)
    (hlo : n = 0 ∨ 2 * ((ulps n : ℚ) - V) ≤ (ulps n : ℚ) - ulps (n - 1))
    (hupe : 2 * (V - ulps n) = (ulps (n + 1) : ℚ) - ulps n → n % 2 = 0)
    (hloe : n ≠ 0 → 2 * ((ulps n : ℚ) - V) = (ulps n : ℚ) - ulps (n - 1) → n % 2 = 0) :
    IsRneD (V * 2 ^ (-1074 : ℤ)) d := by
  have hu : (0 : ℚ) < 2 ^ (-1074 : ℤ) := by positivity
  rw [IsRneD, if_neg (not_le.2 hb)]
  refine ⟨_, dMag_eq_ulps ((finite_iff_dLow d).2 (hn ▸ hfin)), fun d' m' hm' => ?_⟩
  have hf' : dExp d' ≠ 2047#11 := fun hc => by rw [dMag_eq_none hc] at hm'; cases hm'
  rw [dMag_eq_ulps hf'] at hm'
  obtain rfl := Option.some.inj hm'
  rw [getLsbD_zero_iff, ← hn, ← sub_mul, ← sub_mul, abs_mul, abs_mul, abs_of_pos hu]
  generalize (dLow d').toNat = n'
  rcases lt_trichotomy n' n with hlt | rfl | hgt
  · have h1 : (ulps n' : ℚ) ≤ ulps (n - 1) := by exact_mod_cast ulps_strictMono.monotone (by omega)
    have h2 : (ulps (n - 1) : ℚ) < ulps n := by exact_mod_cast ulps_strictMono (by omega)
    have hlo := hlo.resolve_left (by omega)
    have key : |V - ulps n| ≤ V - ulps n' := by rw [abs_le]; constructor <;> linarith
    have habs : |V - (ulps n' : ℚ)| = V - ulps n' := abs_of_nonneg (le_trans (abs_nonneg _) key)
    rw [habs]
    refine ⟨mul_le_mul_of_nonneg_right key hu.le, fun heq _ => hloe (by omega) ?_⟩
    have heq := mul_right_cancel₀ hu.ne' heq
    rcases abs_cases (V - (ulps n : ℚ)) with ⟨h, _⟩ | ⟨h, _⟩ <;> rw [h] at heq <;> linarith
  · exact ⟨le_rfl, fun _ h => absurd rfl h⟩
  · have h1 : (ulps (n + 1) : ℚ) ≤ ulps n' := by exact_mod_cast ulps_strictMono.monotone (by omega)
    have h2 : (ulps n : ℚ) < ulps (n + 1) := by exact_mod_cast ulps_lt_succ n
    have hlow : (ulps n : ℚ) - V ≤ ulps n' - V := by linarith
    have key : |V - ulps n| ≤ ulps n' - V := by rw [abs_le]; constructor <;> linarith
    have habs : |V - (ulps n' : ℚ)| = ulps n' - V := by
      rw [abs_sub_comm]; exact abs_of_nonneg (le_trans (abs_nonneg _) key)
    rw [habs]
    refine ⟨mul_le_mul_of_nonneg_right key hu.le, fun heq _ => hupe ?_⟩
    have heq := mul_right_cancel₀ hu.ne' heq
    rcases abs_cases (V - (ulps n : ℚ)) with ⟨h, _⟩ | ⟨h, _⟩ <;> rw [h] at heq <;> linarith

/-! ### Extended magnitudes -/

/-- The magnitude of an operand with exponent field 0 (R17). -/
theorem xMag_expZero (subExp : Int) (sg : BitVec 1) (fr : BitVec 64) :
    xMag subExp (packX sg 0#15 fr) = some ((fr.toNat : ℚ) / 2 ^ 63 * 2 ^ subExp) := by
  rw [xMag, xExp15_packX, if_neg (by decide), if_pos rfl, xFrac_packX]

/-- The magnitude of a normal-class operand (R15). -/
theorem xMag_normal (subExp : Int) (sg : BitVec 1) {exp15 : BitVec 15} (fr : BitVec 64)
    (h1 : exp15 ≠ 0x7FFF#15) (h0 : exp15 ≠ 0#15) :
    xMag subExp (packX sg exp15 fr) = some ((fr.toNat : ℚ) / 2 ^ 63 * 2 ^ ((exp15.toNat : ℤ) - 16383)) := by
  rw [xMag, xExp15_packX, if_neg h1, if_neg h0, xFrac_packX]

/-- The magnitude of a normal-class operand, normalized, in units of the smallest subnormal (R86, R90). -/
theorem xMag_normalized (subExp : Int) (sg : BitVec 1) {exp15 : BitVec 15} {fr : BitVec 64} {nz F : Nat}
    {e : ℤ} (h1 : exp15 ≠ 0x7FFF#15) (h0 : exp15 ≠ 0#15) (hF : F = fr.toNat * 2 ^ nz)
    (he : e = (exp15.toNat : ℤ) + 1023 - 16383 - nz) :
    xMag subExp (packX sg exp15 fr) = some ((F : ℚ) * 2 ^ (e - 12) * 2 ^ (-1074 : ℤ)) := by
  rw [xMag_normal subExp sg fr h1 h0, hF, he]
  congr 1
  simp only [Nat.cast_mul, Nat.cast_pow, Nat.cast_ofNat]
  rw [show (exp15.toNat : ℤ) + 1023 - 16383 - nz - 12 = (exp15.toNat : ℤ) - 16383 + (1023 - 12) + -nz by ring,
    zpow_add₀ (by norm_num), zpow_add₀ (by norm_num), zpow_neg, zpow_natCast]
  have h2 : (2 : ℚ) ^ nz ≠ 0 := by positivity
  have h3 : (2 : ℚ) ^ (1023 - 12 : ℤ) * 2 ^ (-1074 : ℤ) = 1 / 2 ^ 63 := by
    rw [← zpow_add₀ (by norm_num)]; norm_num
  generalize (2 : ℚ) ^ (1023 - 12 : ℤ) = c at *
  generalize (2 : ℚ) ^ (-1074 : ℤ) = u at *
  calc (fr.toNat : ℚ) / 2 ^ 63 * 2 ^ ((exp15.toNat : ℤ) - 16383)
      = fr.toNat * 2 ^ ((exp15.toNat : ℤ) - 16383) * (1 / 2 ^ 63) := by ring
    _ = _ := by rw [← h3]; field_simp

end Sys2Proof.Machine
end

