-- ==== Sys2Proof/Machine/Text.lean ====
section
/-! DEFINITION. The one-line notation of transactions and of the byte pseudo-operations
(30_encoding.md R70, R71; 92_eei_decisions.md D13). Presentation only: nothing in the machine reads it. -/

namespace Sys2Proof.Machine

/-- One upper-case hexadecimal digit. -/
def hexDigit (n : Nat) : Char :=
  if n < 10 then Char.ofNat (48 + n) else Char.ofNat (55 + n)

/-- The low `k` hexadecimal digits of `n`, most significant first, without prefix (R70). -/
def hexDigits : Nat → Nat → List Char
  | 0, _ => []
  | k + 1, n => hexDigits k (n / 16) ++ [hexDigit (n % 16)]

/-- A number in exactly `k` hexadecimal digits. -/
def hex (k n : Nat) : String := String.ofList (hexDigits k n)

/-- `<se, 4 hex digits>:<fr, 16 hex digits>` of an extended value on a port (R70). -/
def portText (x : XPort) : String :=
  hex 4 (valueOfPort x).signExponent.toNat ++ ":" ++ hex 16 (valueOfPort x).fraction.toNat

/-- `TW = <op>:<x_se>:<x_fr>:<d>` with the ignored field written as zeros (R70). -/
def transactionText (i : Instr) : String :=
  match i with
  | .x2d sign exp15 fr _ => "0:" ++ portText (packX sign exp15 fr) ++ ":" ++ hex 16 0
  | .d2x dsign dexp dman _ => "1:" ++ portText 0#80 ++ ":" ++ hex 16 (dsign ++ dexp ++ dman).toNat

/-- A transaction and its outcome on one line (R70): the line omits the port that is not selected. -/
def outcomeText (p : InPorts) (o : OutPorts) : String :=
  if p.op = 0#1 then
    "X2D " ++ portText p.xIn ++ " => d_out=" ++ hex 16 o.dOut.toNat ++ " cls=" ++ hex 1 (clsCode o.cls).toNat
  else
    "D2X " ++ hex 16 p.dIn.toNat ++ " => x_out=" ++ portText o.xOut ++ " cls=" ++ hex 1 (clsCode o.cls).toNat

/-- The digits of a buffer, `buf[0]` first (R71). -/
def bufferText (buf : List Byte) : String :=
  String.ofList (buf.flatMap fun b => hexDigits 2 b.toNat)

/-- `ENCBE` and `ENCLE` on one line (R71). -/
def encodeText (order : ByteOrder) (v : ExtendedValue) : String :=
  (match order with | .big => "ENCBE " | .little => "ENCLE ") ++ portText (portOfValue v)
    ++ " => " ++ bufferText (codecEncode order v)

/-- `DECBE` and `DECLE` on one line (R71); a buffer of the wrong size has no line (R46). -/
def decodeText (order : ByteOrder) (buf : List Byte) : Except CodecError String :=
  match codecDecode order buf with
  | .ok v => .ok ((match order with | .big => "DECBE " | .little => "DECLE ") ++ bufferText buf
      ++ " => " ++ portText (portOfValue v))
  | .error e => .error e

end Sys2Proof.Machine
end

