-- ==== Sys2Proof/Tests/Slice0.lean ====
section
/-! SUPPORT. Checks of the model on values the spec gives (95_test_vectors.md) and, for every statement
with hypotheses, a named witness that meets them together. -/

namespace Sys2Proof.Tests

open Sys2Proof Sys2Proof.Machine

/-! ## Well-formedness: each check refuses an ill-formed term -/

theorem test_wf_word_146_bits_refused : txWordWf (2 ^ 145) = false := by decide
theorem test_wf_word_145_bits_accepted : txWordWf (2 ^ 145 - 1) = true := by decide
theorem test_wf_buffer_of_nine_refused : bufferWf (List.replicate 9 0#8) = false := by decide
theorem test_wf_nan_mantissa_zero_refused : nanMantWf 0#52 = false := by decide
theorem test_wf_nan_mantissa_default_accepted : nanMantWf Config.dNanMantDefault = true := by decide
theorem test_wf_subnormal_scale_refused : xSubExpWf (-16384) = false := by decide

/-! ## Decoding: words written out bit by bit from R60's table -/

/-- `X2D C000:C90FDAA22168C235` (95_test_vectors.md 3.3): op 0, sign 1, exponent 4000, fraction, `d_in` 1. -/
theorem test_decode_x2d_word :
    decode 0b0_1_100000000000000_1100100100001111110110101010001000100001011010001100001000110101_0000000000000000000000000000000000000000000000000000000000000001#145
      = .x2d 1#1 0x4000#15 0xC90FDAA22168C235#64 1#64 := by decide

/-- `D2X BFF8000000000001`: op 1, `x_in` 1, sign 1, exponent 3FF, mantissa 8000000000001. -/
theorem test_decode_d2x_word :
    decode 0b1_00000000000000000000000000000000000000000000000000000000000000000000000000000001_1_01111111111_1000000000000000000000000000000000000000000000000001#145
      = .d2x 1#1 0x3FF#11 0x8000000000001#52 1#80 := by decide

/-- The word of step 1 of program P1 (95_test_vectors.md section 4), encoded. -/
theorem test_encode_p1 : encode (.d2x 0#1 0#11 1#52 0#80) = 0x1000000000000000000000000000000000001#145 := by
  decide

/-- R68: there is one transaction length, so a 146th bit makes the number no transaction. -/
theorem test_decode_rejects_wide_word :
    decodeWord (2 ^ 145) = .error .widerThanTransactionWord ∧ decodeTableWord 152 (2 ^ 145) = none := by
  decide

/-! ## X2D -/

/-- 95_test_vectors.md 3.4: the inputs that tell common mistakes from the rules (NaN mantissa at its
default). -/
theorem test_x2d_mistake_vectors :
    [(0#1, 0x3FFF#15, 0x8000000000000401#64, 0x3FF0000000000001#64),
     (0#1, 0x3FFF#15, 0x8000000000000400#64, 0x3FF0000000000000#64),
     (0#1, 0x3FFF#15, 0xFFFFFFFFFFFFFC00#64, 0x4000000000000000#64),
     (0#1, 0x3C00#15, 0xFFFFFFFFFFFFF800#64, 0x0010000000000000#64),
     (0#1, 0x3BCC#15, 0x8000000000000001#64, 0x0000000000000001#64),
     (0#1, 0x3BCD#15, 0x8000000000000000#64, 0x0000000000000001#64),
     (0#1, 0x7D00#15, 0xFFFFFFFFFFFFFFFF#64, 0x7FF0000000000000#64),
     (0#1, 0x43FE#15, 0xFFFFFFFFFFFFFC00#64, 0x7FF0000000000000#64),
     (0#1, 0x7FFF#15, 0x0000000000000000#64, 0x7FF0000000000000#64),
     (0#1, 0x7FFF#15, 0x8000000000000000#64, 0x7FF8000000000000#64),
     (1#1, 0x3BCB#15, 0xFFFFFFFFFFFFFFFF#64, 0x8000000000000000#64),
     (0#1, 0x3FFF#15, 0x4000000000000000#64, 0x3FE0000000000000#64)].all
      (fun v => x2dResult Config.dNanMantDefault v.1 v.2.1 v.2.2.1 == v.2.2.2) = true := by
  decide +kernel

/-- Ports at power-up with one transaction to come. -/
def pendingOne (op : BitVec 1) (x : XPort) (d : DPort) : State :=
  { State.reset with pending := [{ op := op, xIn := x, dIn := d }] }

/-- 95_test_vectors.md 3.3, pi negative, with ones on the ignored port. -/
theorem test_step_x2d_pi :
    step (pendingOne 0#1 0xC000C90FDAA22168C235#80 0xFFFFFFFFFFFFFFFF#64) = .next
      { inp := { op := 0#1, xIn := 0xC000C90FDAA22168C235#80, dIn := 0xFFFFFFFFFFFFFFFF#64 },
        out := { dOut := 0xC00921FB54442D18#64, xOut := 0#80, cls := .normal }, pending := [], later := .ended } := by
  rfl

/-! ## D2X -/

/-- 95_test_vectors.md 3.2 and 3.4: the five cases and their common mistakes. -/
theorem test_d2x_vectors :
    [(0#1, 0#11, 0x0000000000001#52, 0x3BCD8000000000000000#80),
     (1#1, 0#11, 0xFFFFFFFFFFFFF#52, 0xBC00FFFFFFFFFFFFF000#80),
     (0#1, 2047#11, 0x0000000000000#52, 0x7FFF0000000000000000#80),
     (0#1, 2047#11, 0x0000000000001#52, 0x7FFFFFFFFFFFFFFFFFFF#80),
     (0#1, 0x3FB#11, 0x999999999999A#52, 0x3FFBCCCCCCCCCCCCD000#80),
     (1#1, 0#11, 0x0000000000000#52, 0x80000000000000000000#80)].all
      (fun v => d2xResult v.1 v.2.1 v.2.2.1 == v.2.2.2) = true := by
  decide +kernel

/-- 95_test_vectors.md 3.2, the ignored-port vector. -/
theorem test_step_d2x_one :
    step (pendingOne 1#1 0xFFFFFFFFFFFFFFFFFFFF#80 0x3FF0000000000000#64) = .next
      { inp := { op := 1#1, xIn := 0xFFFFFFFFFFFFFFFFFFFF#80, dIn := 0x3FF0000000000000#64 },
        out := { dOut := 0#64, xOut := 0x3FFF8000000000000000#80, cls := .normal }, pending := [], later := .ended } := by
  rfl

/-! ## The codec and the notation -/

/-- 20_memory.md R45 and 95_test_vectors.md 3.5: the mixed order reads the bytes reversed. -/
theorem test_codec_mixed_order :
    codecDecode .little (encodeBE { signExponent := 0x400E#16, fraction := 0xAC44000000000000#64 }) =
      .ok { signExponent := 0#16, fraction := 0x0000000044AC0E40#64 } := by decide

/-- 95_test_vectors.md 3.5. -/
theorem test_text_encle :
    encodeText .little { signExponent := 0x0123#16, fraction := 0x456789ABCDEF0011#64 } =
      "ENCLE 0123:456789ABCDEF0011 => 1100EFCDAB8967452301" := by decide

/-! ## Witnesses: encoding and the step -/

theorem witness_DecodeCutsFieldsFromPorts :
    (∃ p : InPorts, p.op = 0#1) ∧ (∃ p : InPorts, p.op = 1#1) :=
  ⟨⟨State.reset.inp, rfl⟩, ⟨{ State.reset.inp with op := 1#1 }, rfl⟩⟩

theorem witness_TableWordDecodesIffTransactionWord :
    (145 ≤ 145 ∧ 2 ^ 145 - 1 < 2 ^ 145) ∧ (145 ≤ 146 ∧ 2 ^ 145 ≤ 2 ^ 145 ∧ 2 ^ 145 < 2 ^ 146) := by decide

/-- An endless run of which five transactions are over. -/
def endlessFromFive : State := { State.reset with later := .endless 5 }

/-- An infinite double on `d_in`, converted, and a run that is over. -/
def infinityConverted : State where
  inp := { op := 1#1, xIn := 0#80, dIn := 0x7FF0000000000000#64 }
  out := { dOut := 0#64, xOut := 0x7FFF0000000000000000#80, cls := .infinity }
  pending := []
  later := .ended

theorem witness_StepRunsPresentedTransaction :
    ((pendingOne 1#1 0#80 1#64).pending = [{ op := 1#1, xIn := 0#80, dIn := 1#64 }] ∧
      decode (InPorts.word { op := 1#1, xIn := 0#80, dIn := 1#64 }) = .d2x 0#1 0#11 1#52 0#80) ∧
    (endlessFromFive.pending = [] ∧ endlessFromFive.later = .endless 5 ∧
      ∃ i, decode (Config.environmentWord 5) = i) ∧
    (State.reset.pending = [] ∧ State.reset.later = .ended) :=
  ⟨by decide, ⟨rfl, rfl, _, rfl⟩, rfl, rfl⟩

theorem witness_NoTransactionFails :
    (∃ t, (pendingOne 1#1 0#80 1#64).present = some t) ∧ (∃ t, endlessFromFive.present = some t) :=
  ⟨⟨_, rfl⟩, ⟨_, rfl⟩⟩

theorem witness_PlacedWordRunsNext :
    145 ≤ 145 ∧ 2 ^ 144 + 1 < 2 ^ 145 ∧ decodeTableWord 145 (2 ^ 144 + 1) = some (.d2x 0#1 0#11 1#52 0#80) := by
  decide

theorem witness_TransactionChangesOnlyOutputs :
    (∃ s', exec (.d2x 1#1 0#11 0#52 0#80) State.reset = .next s') ∧
    (∃ s', step (pendingOne 1#1 0#80 1#64) = .next s' ∧ (pendingOne 1#1 0#80 1#64).pending = [⟨1#1, 0#80, 1#64⟩]) ∧
    (∃ s', step endlessFromFive = .next s' ∧ endlessFromFive.pending = [] ∧ endlessFromFive.later = .endless 5) ∧
    (∃ s', step State.reset = .next s' ∧ State.reset.pending = [] ∧ State.reset.later = .ended) :=
  ⟨⟨_, rfl⟩, ⟨_, rfl, rfl⟩, ⟨_, step_of_present (present_of_endless rfl rfl), rfl, rfl⟩, ⟨_, rfl, rfl, rfl⟩⟩

theorem witness_OutputsDependOnSelectedOperandOnly :
    (∃ t1 t2, (pendingOne 0#1 0#80 3#64).present = some t1 ∧ (pendingOne 0#1 0#80 7#64).present = some t2 ∧
      t1.inp.op = t2.inp.op ∧ t1.inp.op = 0#1 ∧ t1.inp.xIn = t2.inp.xIn ∧ t1.inp.dIn ≠ t2.inp.dIn) ∧
    (∃ t1 t2, (pendingOne 1#1 3#80 7#64).present = some t1 ∧ (pendingOne 1#1 0#80 7#64).present = some t2 ∧
      t1.inp.op = t2.inp.op ∧ t1.inp.op = 1#1 ∧ t1.inp.dIn = t2.inp.dIn ∧ t1.inp.xIn ≠ t2.inp.xIn) :=
  ⟨⟨_, _, rfl, rfl, by decide⟩, ⟨_, _, rfl, rfl, by decide⟩⟩

/-- The infinity converted is settled, and it steps. -/
theorem infinityConverted_settled : infinityConverted.Settled := by
  refine ⟨fun h => absurd h (by decide), fun _ => ⟨⟨by decide, by decide, by decide, fun _ m _ h => ?_⟩, rfl, by decide⟩⟩
  exact absurd h (by simp [dMag, infinityConverted, dExp])

theorem witness_StepSettlesThePorts :
    (infinityConverted.Settled ∧ ∃ s', step infinityConverted = .next s') ∧
    (∃ t, (pendingOne 1#1 0#80 1#64).present = some t) :=
  ⟨⟨infinityConverted_settled, _, rfl⟩, _, rfl⟩

theorem witness_RunIsFiniteOrInfinite :
    State.reset.later = .ended ∧ (pendingOne 1#1 0#80 1#64).later = .ended ∧ endlessFromFive.later = .endless 5 := by
  decide

/-- The environment presents the same infinity for ever. -/
theorem witness_EveryEndlessChoiceRuns :
    IsEndlessRun (fun _ => infinityConverted.inp) (fun _ => infinityConverted) := by
  have h : outputsOf (decode infinityConverted.inp.word) = infinityConverted.out := by decide
  intro _
  rw [step_enqueueFirst, h]

/-- R169: a run of one transaction is observed as one pair, however long one looks. -/
theorem test_run_ends : (observe 3 (pendingOne 1#1 0#80 0x7FF0000000000000#64)).length = 1 := by rfl

/-! ## Witnesses: D2X -/

theorem witness_D2xSubnormal : (1#52 ≠ 0#52) ∧ (0xFFFFFFFFFFFFF#52 ≠ 0#52) := by decide

theorem witness_D2xNaN : (1#52 ≠ 0#52) ∧ (0xFFFFFFFFFFFFF#52 ≠ 0#52) := by decide

theorem witness_D2xNormal :
    (1 ≤ (1#11).toNat ∧ (1#11).toNat ≤ 2046) ∧ (1 ≤ (2046#11).toNat ∧ (2046#11).toNat ≤ 2046) := by decide

/-- The five classes of double reach every premise on the class of the result. -/
theorem witness_D2xImageAndInjectivity :
    (xClass (d2xResult 0#1 2047#11 1#52) = .nan ∧ xClass (d2xResult 0#1 0#11 1#52) = .normal ∧
      xClass (d2xResult 0#1 2046#11 0xFFFFFFFFFFFFF#52) = .normal ∧
      xClass (d2xResult 1#1 2047#11 0#52) = .infinity) ∧
    (dClass 1#64 ≠ .nan ∧ ∃ o, exec (d2xOf 1#64 0#80) State.reset = .next { State.reset with out := o } ∧
      o.xOut = o.xOut) := by
  refine ⟨by decide +kernel, by decide, _, rfl, rfl⟩

/-! ## Witnesses: X2D -/

theorem witness_X2dNaN : (1#64 ≠ 0#64) ∧ (0xFFFFFFFFFFFFFFFF#64 ≠ 0#64) := by decide

theorem witness_X2dZeroFraction :
    (0#15 ≠ 0x7FFF#15) ∧ (1#15 ≠ 0x7FFF#15 ∧ 1#15 ≠ 0#15) ∧ (0x7FFE#15 ≠ 0x7FFF#15 ∧ 0x7FFE#15 ≠ 0#15) := by
  decide

theorem witness_X2dExponentFieldZero : (1#64 ≠ 0#64) ∧ (0xFFFFFFFFFFFFFFFF#64 ≠ 0#64) := by decide

/-- The premises the finite-path statements share, on one operand. -/
abbrev FinitePremises (exp15 : BitVec 15) (fr : BitVec 64) (nz F : Nat) (e : ℤ) : Prop :=
  exp15 ≠ 0x7FFF#15 ∧ F = fr.toNat * 2 ^ nz ∧ 2 ^ 63 ≤ F ∧ F < 2 ^ 64 ∧
    e = (exp15.toNat : ℤ) + 1023 - 16383 - nz

/-- The least `e`, and `e = 0` at the carry to the smallest normal double. -/
theorem witness_X2dSubnormalPath :
    (FinitePremises 0#15 1#64 63 (2 ^ 63) (-15423) ∧ (-15423 : ℤ) ≤ 0) ∧
    (FinitePremises 0x3BCC#15 0x8000000000000000#64 0 (2 ^ 63) (-52) ∧ (-52 : ℤ) ≤ 0 ∧ rneShift (2 ^ 63) 64 = 0) ∧
    (FinitePremises 0x3BCD#15 0x8000000000000000#64 0 (2 ^ 63) (-51) ∧ (-51 : ℤ) ≤ 0 ∧ rneShift (2 ^ 63) 63 = 1) ∧
    (FinitePremises 0x3C00#15 0xFFFFFFFFFFFFF7FF#64 0 0xFFFFFFFFFFFFF7FF 0 ∧ (0 : ℤ) ≤ 0 ∧
      rneShift 0xFFFFFFFFFFFFF7FF 12 = 2 ^ 52 - 1) ∧
    (FinitePremises 0x3C00#15 0xFFFFFFFFFFFFF800#64 0 0xFFFFFFFFFFFFF800 0 ∧ (0 : ℤ) ≤ 0 ∧
      rneShift 0xFFFFFFFFFFFFF800 12 = 2 ^ 52) := by decide

/-- `e = -53`, and `e = -52` on either side of the tie, each with a magnitude. -/
theorem witness_X2dUnderflow :
    (FinitePremises 0x3BCB#15 0xFFFFFFFFFFFFFFFF#64 0 0xFFFFFFFFFFFFFFFF (-53) ∧ (-53 : ℤ) ≤ 0) ∧
    (FinitePremises 0x3BCC#15 0x8000000000000000#64 0 (2 ^ 63) (-52) ∧ (-52 : ℤ) ≤ 0) ∧
    (FinitePremises 0x3BCC#15 0x8000000000000001#64 0 (2 ^ 63 + 1) (-52) ∧ (-52 : ℤ) ≤ 0 ∧ 2 ^ 63 < 2 ^ 63 + 1) ∧
    (xSubExpWf (-16383) = true ∧ xSubExpWf (-16382) = true ∧
      (∃ v, xMag (-16383) (packX 0#1 0x3BCC#15 0x8000000000000001#64) = some v) ∧
      (∃ v, xMag (-16382) (packX 1#1 0x3BCB#15 0xFFFFFFFFFFFFFFFF#64) = some v)) := by
  refine ⟨by decide, by decide, by decide, by decide, by decide, ⟨_, rfl⟩, ⟨_, rfl⟩⟩

/-- `e = 1`; the carry at `e = 1`; the largest and the first overflowing significand at `e = 2046`. -/
theorem witness_X2dNormalPath :
    (FinitePremises 0x3C01#15 0x8000000000000000#64 0 (2 ^ 63) 1 ∧ (1 : ℤ) ≤ 1 ∧ rneShift (2 ^ 63) 11 = 2 ^ 52) ∧
    (FinitePremises 0x3C01#15 0xFFFFFFFFFFFFFFFF#64 0 0xFFFFFFFFFFFFFFFF 1 ∧ (1 : ℤ) ≤ 1 ∧
      rneShift 0xFFFFFFFFFFFFFFFF 11 = 2 ^ 53 ∧ (2 : ℤ) ≤ 2046) ∧
    (FinitePremises 0x443D#15 1#64 63 (2 ^ 63) 2046 ∧ (1 : ℤ) ≤ 2046 ∧ (2046 : ℤ) ≤ 2046) := by decide

theorem witness_X2dOverflow :
    (FinitePremises 0x43FE#15 0xFFFFFFFFFFFFFBFF#64 0 0xFFFFFFFFFFFFFBFF 2046 ∧ (1 : ℤ) ≤ 2046) ∧
    (FinitePremises 0x43FE#15 0xFFFFFFFFFFFFFC00#64 0 0xFFFFFFFFFFFFFC00 2046 ∧ (1 : ℤ) ≤ 2046) ∧
    (FinitePremises 0x43FF#15 0x8000000000000000#64 0 (2 ^ 63) 2047 ∧ (1 : ℤ) ≤ 2047) ∧
    (xSubExpWf (-16382) = true ∧ ∃ v, xMag (-16382) (packX 0#1 0x43FE#15 0xFFFFFFFFFFFFFC00#64) = some v) := by
  refine ⟨by decide, by decide, by decide, by decide, ⟨_, rfl⟩⟩

/-- A shift by one, and the longest: a lone lowest bit under exponent 64. -/
theorem witness_X2dUnnormalConvertsAsNormalized :
    (0x4000#15 ≠ 0x7FFF#15 ∧ 1 < (0x4000#15).toNat ∧ (0x4000000000000000#64).toNat * 2 ^ 1 < 2 ^ 64) ∧
    (64#15 ≠ 0x7FFF#15 ∧ 63 < (64#15).toNat ∧ (1#64).toNat * 2 ^ 63 < 2 ^ 64) := by decide

/-- Every clause, at both ends of its range of stored exponents. -/
theorem witness_X2dResultByStoredExponent :
    ((0x8000000000000000#64).getLsbD 63 = true ∧ (0xFFFFFFFFFFFFFBFF#64).getLsbD 63 = true ∧
      (0xFFFFFFFFFFFFFC00#64).getLsbD 63 = true) ∧
    ((0#15).toNat ≤ 15307 ∧ (15307#15).toNat ≤ 15307) ∧ (15308#15).toNat = 15308 ∧
    (15309 ≤ (15309#15).toNat ∧ (15360#15).toNat ≤ 15360) ∧
    (15361 ≤ (15361#15).toNat ∧ (17405#15).toNat ≤ 17405) ∧
    ((17406#15).toNat = 17406 ∧ (0xFFFFFFFFFFFFFBFF#64).toNat ≤ 0xFFFFFFFFFFFFFBFF ∧
      0xFFFFFFFFFFFFFBFF < (0xFFFFFFFFFFFFFC00#64).toNat) ∧
    (17407 ≤ (17407#15).toNat ∧ (32766#15).toNat ≤ 32766) ∧ (32767#15).toNat = 32767 := by decide

/-- At `e = 0` (the carry), at `e = 1` and at the overflow boundary. -/
theorem witness_X2dOneFormula :
    (FinitePremises 0x3C00#15 0xFFFFFFFFFFFFF800#64 0 0xFFFFFFFFFFFFF800 0 ∧
      2 ^ 52 = (max (0 : ℤ) 1 - 1).toNat * 2 ^ 52 + rneShift 0xFFFFFFFFFFFFF800 (11 + (max (0 : ℤ) (1 - 0)).toNat)) ∧
    (FinitePremises 0x3C01#15 0x8000000000000000#64 0 (2 ^ 63) 1 ∧
      2 ^ 52 = (max (1 : ℤ) 1 - 1).toNat * 2 ^ 52 + rneShift (2 ^ 63) (11 + (max (0 : ℤ) (1 - 1)).toNat)) ∧
    (FinitePremises 0x43FE#15 0xFFFFFFFFFFFFFC00#64 0 0xFFFFFFFFFFFFFC00 2046 ∧
      0x7FF0000000000000 = (max (2046 : ℤ) 1 - 1).toNat * 2 ^ 52
        + rneShift 0xFFFFFFFFFFFFFC00 (11 + (max (0 : ℤ) (1 - 2046)).toNat)) := by decide +kernel

theorem witness_X2dLateConditionsNameTheResult :
    (0x7FFE#15 ≠ 0x7FFF#15 ∧ 1#64 ≠ 0#64 ∧ x2dOvf 0x7FFE#15 1#64 = true) ∧
    (0#15 ≠ 0x7FFF#15 ∧ x2dUnf 0#15 1#64 = true) := by decide +kernel

/-- Zero below an operand of exponent field 0, and a finite operand below an infinity. -/
theorem witness_X2dIsMonotone :
    xSubExpWf (-16383) = true ∧ xSign 0#80 = xSign 0x3FFF8000000000000000#80 ∧
      xMag (-16383) 0#80 = some (((0#64).toNat : ℚ) / 2 ^ 63 * 2 ^ (-16383 : ℤ)) ∧
      xMag (-16383) 0x3FFF8000000000000000#80 =
        some (((0x8000000000000000#64).toNat : ℚ) / 2 ^ 63 * 2 ^ (((0x3FFF#15).toNat : ℤ) - 16383)) ∧
      ((0#64).toNat : ℚ) / 2 ^ 63 * 2 ^ (-16383 : ℤ) ≤
        ((0x8000000000000000#64).toNat : ℚ) / 2 ^ 63 * 2 ^ (((0x3FFF#15).toNat : ℤ) - 16383) ∧
      xSign 0#80 = xSign 0x7FFF0000000000000000#80 ∧ xClass 0x7FFF0000000000000000#80 = .infinity := by
  refine ⟨by decide, by decide, rfl, rfl, ?_, by decide, by decide⟩
  norm_num

/-- Above the bound both infinities meet the relation; zero is nearest to zero. -/
theorem witness_NearestDoubleIsUnique :
    (IsRneD overflowBound 0x7FF0000000000000#64 ∧ IsRneD overflowBound 0xFFF0000000000000#64) ∧
      IsRneD 0 0#64 := by
  refine ⟨⟨?_, ?_⟩, ?_⟩
  · rw [IsRneD, if_pos le_rfl]; decide
  · rw [IsRneD, if_pos le_rfl]; decide
  · have hb : (0 : ℚ) < overflowBound := by
      rw [overflowBound, sub_pos]
      exact pow_lt_pow_right₀ one_lt_two (by omega)
    rw [IsRneD, if_neg (not_le.2 hb)]
    refine ⟨0, by simp [dMag, dExp, dMan], fun d' m' _ => ⟨by simp, fun _ _ => by decide⟩⟩

/-! ## Witnesses: the sub-blocks -/

theorem witness_NormalizerPutsHighestBitOnTop :
    (1#64 ≠ 0#64 ∧ 63 - (Machine.normalize 1#64).1 < 1) ∧
      (0x8000000000000000#64 ≠ 0#64 ∧ 63 - (Machine.normalize 0x8000000000000000#64).1 < 64) := by decide +kernel

theorem witness_NormalizationKeepsMagnitude :
    (0#15 ≠ 0x7FFF#15 ∧ 1#64 ≠ 0#64) ∧ (0x7FFE#15 ≠ 0x7FFF#15 ∧ 0x7FFE#15 ≠ 0#15) := by decide

/-- A tie at shift 1, and shifts by 64 and 65. -/
theorem witness_RounderIsNearestEven :
    (3 < 2 ^ 64 ∧ 1 ≤ 1 ∧ |((3 : Nat) : ℤ) - (rneShift 3 1 : ℤ) * 2 ^ 1| = 2 ^ (1 - 1)) ∧
    (2 ^ 64 - 1 < 2 ^ 64 ∧ 1 ≤ 64 ∧ 64 = 64 ∧ 2 ^ 63 < 2 ^ 64 - 1) ∧ (1 ≤ 65 ∧ 65 ≤ 65) := by decide

theorem witness_RounderGuardStickyForm : 1 ≤ 1 ∧ 1 ≤ 15435 := by decide

theorem witness_SubnormalQuotientBounds :
    (2 ^ 63 ≤ 2 ^ 63 ∧ 2 ^ 63 < 2 ^ 64 ∧ (-15423 : ℤ) ≤ -15423 ∧ (-15423 : ℤ) ≤ 0) ∧
    (2 ^ 63 ≤ 0xFFFFFFFFFFFFFFFF ∧ 0xFFFFFFFFFFFFFFFF < 2 ^ 64 ∧ (-15423 : ℤ) ≤ 0 ∧ (0 : ℤ) ≤ 0) := by decide

theorem witness_NormalQuotientBounds :
    (2 ^ 63 ≤ 2 ^ 63 ∧ 2 ^ 63 < 2 ^ 64 ∧ (1 : ℤ) ≤ 1 ∧ (1 : ℤ) ≤ 17406) ∧
    (2 ^ 63 ≤ 0xFFFFFFFFFFFFFFFF ∧ 0xFFFFFFFFFFFFFFFF < 2 ^ 64 ∧ (1 : ℤ) ≤ 17406 ∧ (17406 : ℤ) ≤ 17406) := by
  decide

/-! ## Witnesses: laws across the operations, decomposition, codec -/

theorem witness_RoundTripDouble : dClass 1#64 ≠ .nan ∧ dClass 0x7FF0000000000001#64 = .nan := by decide

theorem witness_RoundTripNaN :
    dClass 0x7FF0000000000001#64 = .nan ∧ dClass 0xFFFFFFFFFFFFFFFF#64 = .nan := by decide

theorem witness_DecompositionGivesMagnitude :
    (1 ≤ (xExp15 0x00010000000000000001#80).toNat ∧ (xExp15 0x00010000000000000001#80).toNat ≤ 32766) ∧
    (1 ≤ (xExp15 0xFFFE8000000000000000#80).toNat ∧ (xExp15 0xFFFE8000000000000000#80).toNat ≤ 32766) := by
  decide

theorem witness_BigEndianLayout : 0 < 10 ∧ 9 < 10 := by decide

theorem witness_LittleEndianLayout : 0 < 10 ∧ 9 < 10 := by decide

theorem witness_ByteRoundTrip : bufferWf (List.replicate 10 0xFF#8) = true := by decide

theorem witness_WrongSizeBufferIsInvalidArgument :
    ([] : List Byte).length ≠ 10 ∧ (List.replicate 9 0#8).length ≠ 10 ∧ (List.replicate 11 0#8).length ≠ 10 := by
  decide

end Sys2Proof.Tests
end

/-! ## Steps and runs as functions of the input ports (00_scope.md R12, 70_reset_and_hazards.md R169) -/

namespace Sys2Proof.Machine

theorem step_eq_exec {s t : State} (h : s.present = some t) : step s = exec (decode t.inp.word) t := by
  rw [step, h]
  rfl

/-- Inversion of a step: the transaction that came to the ports, or nothing after the end of the run. -/
theorem step_next {s s' : State} (h : step s = .next s') :
    (∃ t, s.present = some t ∧ s' = { t with out := outputsOf (decode t.inp.word) }) ∨
      (s.present = none ∧ s' = s) := by
  obtain ⟨t, ht, hstep⟩ | ⟨hover, hstep⟩ := step_cases s
  · exact .inl ⟨t, ht, Host.Outcome.next.inj (h.symm.trans hstep)⟩
  · exact .inr ⟨hover, Host.Outcome.next.inj (h.symm.trans hstep)⟩

theorem tableBits_of_lt {nbits w : Nat} (hn : 145 ≤ nbits) (hw : w < 2 ^ 145) : tableBits nbits w = w :=
  Nat.mod_eq_of_lt (hw.trans_le (Nat.pow_le_pow_right (by decide) hn))

theorem decodeTableWord_of_lt {nbits w : Nat} (hn : 145 ≤ nbits) (hw : w < 2 ^ 145) :
    decodeTableWord nbits w = some (decode (BitVec.ofNat 145 w)) := by
  have hwf : txWordWf w = true := decide_eq_true hw
  rw [decodeTableWord, tableBits_of_lt hn hw, decodeWord, if_pos hwf]

end Sys2Proof.Machine

/-! ## Classes, and the contract of `D2X` (00_scope.md R14 to R16, 41_d2x.md R100 to R106) -/

namespace Sys2Proof.Machine

@[simp] theorem xClass_packX (sg : BitVec 1) (e : BitVec 15) (f : BitVec 64) :
    xClass (packX sg e f) = bcdX e f := by
  rw [xClass, xExp15_packX, xFrac_packX]

@[simp] theorem dClass_packD (sg : BitVec 1) (e : BitVec 11) (m : BitVec 52) :
    dClass (packD sg e m) = bcdD e m := by
  rw [dClass, dExp_packD, dMan_packD]

theorem bcdX_eq_nan_iff {e : BitVec 15} {f : BitVec 64} : bcdX e f = .nan ↔ e = 0x7FFF#15 ∧ f ≠ 0#64 := by
  unfold bcdX
  split_ifs <;> simp_all [expMaxX, frZero]

theorem bcdX_eq_infinity_iff {e : BitVec 15} {f : BitVec 64} :
    bcdX e f = .infinity ↔ e = 0x7FFF#15 ∧ f = 0#64 := by
  unfold bcdX
  split_ifs <;> simp_all [expMaxX, frZero]

theorem bcdX_eq_normal_iff {e : BitVec 15} {f : BitVec 64} : bcdX e f = .normal ↔ e ≠ 0x7FFF#15 ∧ e ≠ 0#15 := by
  unfold bcdX
  split_ifs <;> simp_all [expMaxX, expZeroX]

theorem bcdD_eq_nan_iff {e : BitVec 11} {m : BitVec 52} : bcdD e m = .nan ↔ e = 2047#11 ∧ m ≠ 0#52 := by
  unfold bcdD
  split_ifs <;> simp_all [expMaxD, manZero]

theorem bcdD_eq_infinity_iff {e : BitVec 11} {m : BitVec 52} :
    bcdD e m = .infinity ↔ e = 2047#11 ∧ m = 0#52 := by
  unfold bcdD
  split_ifs <;> simp_all [expMaxD, manZero]

/-- An exponent field strictly between 0 and all ones is that of a normal-class operand (R14). -/
theorem exp15_of_range {e : BitVec 15} (h1 : 1 ≤ e.toNat) (h2 : e.toNat ≤ 32766) : e ≠ 0x7FFF#15 ∧ e ≠ 0#15 := by
  constructor <;> rintro rfl <;> rw [BitVec.toNat_ofNat] at h1 h2 <;> omega

theorem dMag_packD_expZero (sg : BitVec 1) (m : BitVec 52) :
    dMag (packD sg 0#11 m) = some ((m.toNat : ℚ) * 2 ^ (-1074 : ℤ)) := by
  rw [dMag, dExp_packD, if_neg (by decide), if_pos rfl, dMan_packD]

theorem dMag_packD_normal (sg : BitVec 1) {e : BitVec 11} (m : BitVec 52) (h1 : e ≠ 2047#11) (h0 : e ≠ 0#11) :
    dMag (packD sg e m) = some ((2 ^ 52 + (m.toNat : ℚ)) / 2 ^ 52 * 2 ^ ((e.toNat : ℤ) - 1023)) := by
  rw [dMag, dExp_packD, if_neg h1, if_neg h0, dMan_packD]

/-- What `d2xSubnormal` answers: the mantissa shifted up by its leading zeros (R84, R102). -/
theorem d2xSubnormal_spec {dman : BitVec 52} (h : dman ≠ 0#52) :
    12 ≤ clz64 (dman.setWidth 64) ∧ clz64 (dman.setWidth 64) ≤ 63 ∧
      (d2xSubnormal dman).2.toNat = dman.toNat * 2 ^ clz64 (dman.setWidth 64) ∧
      2 ^ 63 ≤ (d2xSubnormal dman).2.toNat ∧
      (d2xSubnormal dman).1.toNat + clz64 (dman.setWidth 64) = 15372 := by
  have hval : (dman.setWidth 64).toNat = dman.toNat := by
    rw [BitVec.toNat_setWidth]
    exact Nat.mod_eq_of_lt (by omega)
  have hne : dman.setWidth 64 ≠ 0#64 := fun hz =>
    h (BitVec.eq_of_toNat_eq (by rw [← hval, hz]; rfl))
  obtain ⟨hle, hF, hlo⟩ := normalize_spec hne
  rw [hval] at hF
  change clz64 (dman.setWidth 64) ≤ 63 at hle
  have hexp : (d2xSubnormal dman).1.toNat = (16383 - 1022 + 11 - clz64 (dman.setWidth 64)) % 2 ^ 15 :=
    BitVec.toNat_ofNat ..
  have hge : 12 ≤ clz64 (dman.setWidth 64) := by
    by_contra hlt
    have hup : dman.toNat * 2 ^ clz64 (dman.setWidth 64) ≤ dman.toNat * 2 ^ 11 :=
      Nat.mul_le_mul_left _ (Nat.pow_le_pow_right (by decide) (by omega))
    change _ = dman.toNat * 2 ^ clz64 (dman.setWidth 64) at hF
    omega
  exact ⟨hge, hle, hF, hlo, by omega⟩

/-- The value of a normalized subnormal mantissa (R102): `15372 = 16383 + 63 - 1074`. -/
theorem subnormal_value_eq (m : ℚ) {nz exp : Nat} (h : exp + nz = 15372) :
    m * 2 ^ nz / 2 ^ 63 * 2 ^ ((exp : ℤ) - 16383) = m * 2 ^ (-1074 : ℤ) := by
  have hpow : (2 : ℚ) ^ nz / 2 ^ 63 * 2 ^ ((exp : ℤ) - 16383) = 2 ^ (-1074 : ℤ) := by
    rw [← zpow_natCast, ← zpow_natCast, ← zpow_sub₀ two_ne_zero, ← zpow_add₀ two_ne_zero]
    congr 1
    push_cast
    omega
  rw [← hpow]
  ring

/-- What `d2xNormal` answers: the exponent re-biased, the implicit 1 on top of the mantissa (R105). -/
theorem d2xNormal_spec (dexp : BitVec 11) (dman : BitVec 52) :
    (d2xNormal dexp dman).1.toNat = dexp.toNat + 15360 ∧
      (d2xNormal dexp dman).2.toNat = (2 ^ 52 + dman.toNat) * 2 ^ 11 := by
  have hm := dman.isLt
  have he := dexp.isLt
  constructor
  · refine (BitVec.toNat_ofNat ..).trans ?_
    omega
  · have hlow : (dman.setWidth 64 <<< 11).toNat = dman.toNat * 2 ^ 11 := by
      rw [BitVec.toNat_shiftLeft, BitVec.toNat_setWidth, Nat.shiftLeft_eq]
      omega
    have htop : (1#64 <<< 63).toNat = 1 <<< 63 := by decide
    rw [d2xNormal, BitVec.toNat_or, hlow, htop, ← Nat.shiftLeft_add_eq_or_of_lt (by omega)]
    omega

/-- The value of a normal double, re-biased (R105): `15360 = 16383 - 1023`. -/
theorem normal_value_eq (m : Nat) {exp dexp : Nat} (h : exp = dexp + 15360) :
    (((2 ^ 52 + m) * 2 ^ 11 : Nat) : ℚ) / 2 ^ 63 * 2 ^ ((exp : ℤ) - 16383) =
      (2 ^ 52 + (m : ℚ)) / 2 ^ 52 * 2 ^ ((dexp : ℤ) - 1023) := by
  rw [show (exp : ℤ) - 16383 = (dexp : ℤ) - 1023 by omega]
  push_cast
  ring

/-- On a finite double the contract is the sign and the magnitude. -/
theorem ExactlyEquals.of_finite {d : DPort} {x : XPort} (hs : xSign x = dSign d) (hf : dExp d ≠ 2047#11)
    (hx : ∀ subExp, xMag subExp x = dMag d) : ExactlyEquals d x where
  sign := hs
  nan h := absurd (bcdD_eq_nan_iff.1 h).1 hf
  infinity h := absurd (bcdD_eq_infinity_iff.1 h).1 hf
  exact subExp _ _ h := (hx subExp).trans h

/-- On an infinity or a NaN the contract is the sign and the class. -/
theorem ExactlyEquals.of_expMax {d : DPort} {x : XPort} (hs : xSign x = dSign d) (he : dExp d = 2047#11)
    (hc : xClass x = dClass d) : ExactlyEquals d x where
  sign := hs
  nan h := hc.trans h
  infinity h := hc.trans h
  exact _ _ _ h := by
    rw [dMag_eq_none he] at h
    cases h

theorem d2xResult_exactlyEquals_subnormal (sg : BitVec 1) {dman : BitVec 52} (h : dman ≠ 0#52) :
    ExactlyEquals (packD sg 0#11 dman) (d2xResult sg 0#11 dman) := by
  obtain ⟨hge, hle, hF, -, hexp⟩ := d2xSubnormal_spec h
  refine .of_finite (by rw [d2xResult, xSign_packX, dSign_packD]) (by rw [dExp_packD]; decide) fun subExp => ?_
  obtain ⟨hmax, hzero⟩ := exp15_of_range (e := (d2xSubnormal dman).1) (by omega) (by omega)
  rw [d2xResult, d2xFields_subnormal h, xMag_normal subExp sg _ hmax hzero, dMag_packD_expZero, hF,
    Nat.cast_mul, Nat.cast_pow, Nat.cast_ofNat, subnormal_value_eq _ hexp]

theorem d2xResult_exactlyEquals_normal (sg : BitVec 1) {dexp : BitVec 11} (dman : BitVec 52)
    (h0 : dexp ≠ 0#11) (h1 : dexp ≠ 2047#11) : ExactlyEquals (packD sg dexp dman) (d2xResult sg dexp dman) := by
  obtain ⟨hexp, hF⟩ := d2xNormal_spec dexp dman
  refine .of_finite (by rw [d2xResult, xSign_packX, dSign_packD]) (by rwa [dExp_packD]) fun subExp => ?_
  have he := dexp.isLt
  obtain ⟨hmax, hzero⟩ := exp15_of_range (e := (d2xNormal dexp dman).1) (by omega) (by omega)
  rw [d2xResult, d2xFields_normal dman h0 h1, xMag_normal subExp sg _ hmax hzero,
    dMag_packD_normal sg dman h1 h0, hF, normal_value_eq dman.toNat hexp]

/-- `D2X` meets its contract in each of its five cases (R101 to R105). -/
theorem d2xResult_exactlyEquals (sg : BitVec 1) (dexp : BitVec 11) (dman : BitVec 52) :
    ExactlyEquals (packD sg dexp dman) (d2xResult sg dexp dman) := by
  have hs : xSign (d2xResult sg dexp dman) = dSign (packD sg dexp dman) := by
    rw [d2xResult, xSign_packX, dSign_packD]
  by_cases h0 : dexp = 0#11
  · subst h0
    by_cases hm : dman = 0#52
    · subst hm
      refine .of_finite hs (by rw [dExp_packD]; decide) fun subExp => ?_
      rw [d2xResult, d2xFields_zero, xMag_expZero, dMag_packD_expZero]
      simp
    · exact d2xResult_exactlyEquals_subnormal sg hm
  by_cases h1 : dexp = 2047#11
  · subst h1
    refine .of_expMax hs (dExp_packD ..) ?_
    by_cases hm : dman = 0#52
    · subst hm
      rw [d2xResult, d2xFields_infinity, xClass_packX, dClass_packD]
      rfl
    · rw [d2xResult, d2xFields_nan hm, xClass_packX, dClass_packD, bcdD_eq_nan_iff.2 ⟨rfl, hm⟩]
      rfl
  · exact d2xResult_exactlyEquals_normal sg dman h0 h1

end Sys2Proof.Machine

/-! ## `rne_d` and the contract of `X2D` (00_scope.md R18, 42_x2d.md R110 to R124) -/

namespace Sys2Proof.Machine

/-! ### The rounder against the order of the doubles -/

theorem rneShift_le {F sh c : Nat} (hsh : 1 ≤ sh) (h : F ≤ c * 2 ^ sh) : rneShift F sh ≤ c := by
  obtain ⟨h1, -, -, -⟩ := rneShift_spec F hsh
  by_contra hc
  have hmul : (c + 1) * 2 ^ sh ≤ rneShift F sh * 2 ^ sh := Nat.mul_le_mul_right _ (by omega)
  have hpos : 0 < 2 ^ sh := by positivity
  rw [Nat.succ_mul] at hmul
  omega

theorem le_rneShift {F sh c : Nat} (hsh : 1 ≤ sh) (h : c * 2 ^ sh ≤ F) : c ≤ rneShift F sh := by
  obtain ⟨-, h2, -, -⟩ := rneShift_spec F hsh
  by_contra hc
  have hmul : (rneShift F sh + 1) * 2 ^ sh ≤ c * 2 ^ sh := Nat.mul_le_mul_right _ (by omega)
  have hpos : 0 < 2 ^ sh := by positivity
  rw [Nat.succ_mul] at hmul
  omega

/-- `ulps` on a rounded significand `q` in binade `k`, or on the subnormals and the first binade. -/
theorem ulps_scaled {k q : Nat} (hk : k = 0 ∨ 2 ^ 52 ≤ q) (hq : q ≤ 2 ^ 53) : ulps (k * 2 ^ 52 + q) = q * 2 ^ k := by
  by_cases hlo : 2 ^ 52 ≤ q
  · exact ulps_binade k hlo hq
  · obtain rfl := hk.resolve_right hlo
    rw [Nat.zero_mul, Nat.zero_add, pow_zero, Nat.mul_one, ulps_of_le (by omega)]

/-- The gap above a double is one unit of its binade. -/
theorem ulps_scaled_succ {k q : Nat} (hk : k = 0 ∨ 2 ^ 52 ≤ q) (hq : q < 2 ^ 53) :
    ulps (k * 2 ^ 52 + q + 1) = ulps (k * 2 ^ 52 + q) + 2 ^ k := by
  rw [Nat.add_assoc, ulps_scaled (by omega) hq, ulps_scaled hk hq.le, Nat.succ_mul]

/-- The gap below a double is one unit of its binade, save at the bottom of the binade. -/
theorem ulps_scaled_pred {k q : Nat} (hk : k = 0 ∨ 2 ^ 52 < q) (hq : q ≤ 2 ^ 53) (h0 : 0 < q) :
    ulps (k * 2 ^ 52 + q - 1) + 2 ^ k = ulps (k * 2 ^ 52 + q) := by
  obtain ⟨p, rfl⟩ : ∃ p, q = p + 1 := ⟨q - 1, by omega⟩
  rw [← Nat.add_assoc, Nat.add_sub_cancel, ulps_scaled_succ (by omega) hq]

/-- `isRneD_of_neighbours` with one unit `K` on both sides: where the gap to a neighbour is not `K`, the value
lies on the other side of the double. -/
theorem isRneD_of_halfUnit {V K : ℚ} {d : DPort} {n : Nat} (hn : n = (dLow d).toNat)
    (hfin : n < 0x7FF0000000000000) (hb : V * 2 ^ (-1074 : ℤ) < overflowBound)
    (hup : 2 * (V - ulps n) ≤ K) (hlo : 2 * ((ulps n : ℚ) - V) ≤ K)
    (hupe : 2 * (V - ulps n) = K → n % 2 = 0) (hloe : 2 * ((ulps n : ℚ) - V) = K → n % 2 = 0)
    (hnext : V < ulps n ∨ (ulps (n + 1) : ℚ) = ulps n + K)
    (hprev : n = 0 ∨ ulps n ≤ V ∨ (ulps (n - 1) : ℚ) + K = ulps n) : IsRneD (V * 2 ^ (-1074 : ℤ)) d := by
  have hgapUp : (ulps n : ℚ) < ulps (n + 1) := by exact_mod_cast ulps_lt_succ n
  have hgapLo : n ≠ 0 → (ulps (n - 1) : ℚ) < ulps n := fun h => by exact_mod_cast ulps_strictMono (by omega)
  refine isRneD_of_neighbours hn hfin hb ?_ (or_iff_not_imp_left.2 fun h0 => ?_) (fun heq => ?_) fun h0 heq => ?_
  · rcases hnext with h | h <;> linarith
  · have := hgapLo h0
    rcases hprev.resolve_left h0 with h | h <;> linarith
  · rcases hnext with h | h
    · linarith
    · exact hupe (by linarith)
  · have := hgapLo h0
    rcases hprev.resolve_left h0 with h | h
    · linarith
    · exact hloe (by linarith)

section
variable {F sh k : Nat} {V : ℚ}

/-- `rneShift_spec` on the value `V = F * 2^k / 2^sh`: the rounded quotient is within half a unit, and even at
exactly half. -/
theorem rneShift_value (hsh : 1 ≤ sh) (hV : V * 2 ^ sh = F * 2 ^ k) :
    2 * (V - (rneShift F sh : ℚ) * 2 ^ k) ≤ 2 ^ k ∧ 2 * ((rneShift F sh : ℚ) * 2 ^ k - V) ≤ 2 ^ k ∧
      (2 * (V - (rneShift F sh : ℚ) * 2 ^ k) = 2 ^ k → rneShift F sh % 2 = 0) ∧
      (2 * ((rneShift F sh : ℚ) * 2 ^ k - V) = 2 ^ k → rneShift F sh % 2 = 0) := by
  obtain ⟨h1, h2, h3, h4⟩ := rneShift_spec F hsh
  have h1 : 2 * ((rneShift F sh : ℚ) * 2 ^ sh) ≤ 2 * F + 2 ^ sh := by exact_mod_cast h1
  have h2 : 2 * (F : ℚ) ≤ 2 * ((rneShift F sh : ℚ) * 2 ^ sh) + 2 ^ sh := by exact_mod_cast h2
  have h3 : 2 * ((rneShift F sh : ℚ) * 2 ^ sh) = 2 * F + 2 ^ sh → rneShift F sh % 2 = 0 := by exact_mod_cast h3
  have h4 : 2 * (F : ℚ) = 2 * ((rneShift F sh : ℚ) * 2 ^ sh) + 2 ^ sh → rneShift F sh % 2 = 0 := by
    exact_mod_cast h4
  have hS : (0 : ℚ) < 2 ^ sh := by positivity
  have hK : (0 : ℚ) < 2 ^ k := by positivity
  generalize (rneShift F sh : ℚ) = q at *
  generalize (2 : ℚ) ^ sh = S at *
  generalize (2 : ℚ) ^ k = K at *
  have scale : 2 * (V - q * K) * S = (2 * F - 2 * (q * S)) * K := by linear_combination 2 * hV
  refine ⟨le_of_mul_le_mul_right ?_ hS, le_of_mul_le_mul_right ?_ hS,
    fun h => h4 (mul_right_cancel₀ hK.ne' ?_), fun h => h3 (mul_right_cancel₀ hK.ne' ?_)⟩
  · rw [scale, mul_comm K]
    exact mul_le_mul_of_nonneg_right (by linarith) hK.le
  · rw [show 2 * (q * K - V) * S = (2 * (q * S) - 2 * F) * K by linear_combination -scale, mul_comm K]
    exact mul_le_mul_of_nonneg_right (by linarith) hK.le
  · linear_combination -scale + S * h
  · linear_combination scale + S * h

theorem value_lt_of_lt {c : Nat} (hV : V * 2 ^ sh = F * 2 ^ k) (h : F < c * 2 ^ sh) :
    V < ((c * 2 ^ k : Nat) : ℚ) := by
  have hF : (F : ℚ) < c * 2 ^ sh := by exact_mod_cast h
  refine lt_of_mul_lt_mul_right ?_ (by positivity : (0 : ℚ) ≤ 2 ^ sh)
  rw [hV, Nat.cast_mul, Nat.cast_pow, Nat.cast_ofNat, mul_right_comm]
  exact mul_lt_mul_of_pos_right hF (by positivity)

theorem le_value_of_le {c : Nat} (hV : V * 2 ^ sh = F * 2 ^ k) (h : c * 2 ^ sh ≤ F) :
    ((c * 2 ^ k : Nat) : ℚ) ≤ V := by
  have hF : (c * 2 ^ sh : ℚ) ≤ F := by exact_mod_cast h
  refine le_of_mul_le_mul_right ?_ (by positivity : (0 : ℚ) < 2 ^ sh)
  rw [hV, Nat.cast_mul, Nat.cast_pow, Nat.cast_ofNat, mul_right_comm]
  exact mul_le_mul_of_nonneg_right hF (by positivity)

/-- The double assembled from the rounded quotient in binade `k` is the nearest one (R90, R91). -/
theorem isRneD_rneShift {d : DPort} (hsh : 1 ≤ sh) (hV : V * 2 ^ sh = F * 2 ^ k)
    (hlow : (dLow d).toNat = k * 2 ^ 52 + rneShift F sh) (hup : F < 2 ^ 53 * 2 ^ sh)
    (hlo : k = 0 ∨ 2 ^ 52 * 2 ^ sh ≤ F) (hfin : k * 2 ^ 52 + rneShift F sh < 0x7FF0000000000000)
    (hb : V * 2 ^ (-1074 : ℤ) < overflowBound) : IsRneD (V * 2 ^ (-1074 : ℤ)) d := by
  have hq := rneShift_le hsh hup.le
  have hk := hlo.imp_right (le_rneShift hsh)
  obtain ⟨h1, h2, h3, h4⟩ := rneShift_value hsh hV
  have hu : (rneShift F sh : ℚ) * 2 ^ k = ulps (k * 2 ^ 52 + rneShift F sh) := by
    rw [ulps_scaled hk hq, Nat.cast_mul, Nat.cast_pow, Nat.cast_ofNat]
  rw [hu] at h1 h2 h3 h4
  have hVup := value_lt_of_lt hV hup
  have hVlo := hlo.imp_right (le_value_of_le hV)
  generalize rneShift F sh = q at *
  refine isRneD_of_halfUnit hlow.symm hfin hb h1 h2 (fun h => by have := h3 h; omega)
    (fun h => by have := h4 h; omega) ?_ ?_
  · rcases hq.eq_or_lt with rfl | hlt
    · left
      rwa [ulps_scaled hk hq]
    · right
      exact_mod_cast ulps_scaled_succ hk hlt
  · rcases Nat.eq_zero_or_pos (k * 2 ^ 52 + q) with h0 | hpos
    · exact .inl h0
    right
    by_cases hend : k = 0 ∨ 2 ^ 52 < q
    · right
      exact_mod_cast ulps_scaled_pred hend hq (by omega)
    · left
      obtain rfl : q = 2 ^ 52 := by omega
      rw [ulps_scaled hk hq]
      exact hVlo.resolve_left (by omega)

end

end Sys2Proof.Machine

namespace Sys2Proof.Machine

/-! ### Zero, infinity and overflow -/

theorem dLow_packD_infinity (sg : BitVec 1) : dLow (packD sg 2047#11 0#52) = 0x7FF0000000000000#63 :=
  BitVec.eq_of_toNat_eq (dLow_packD_toNat ..)

theorem isRneD_infinity {v : ℚ} (sg : BitVec 1) (h : overflowBound ≤ v) : IsRneD v (packD sg 2047#11 0#52) := by
  rw [IsRneD, if_pos h]
  exact dLow_packD_infinity sg

/-- A value of at most half the smallest subnormal rounds to zero (R117). -/
theorem isRneD_zero_of_le {V : ℚ} (sg : BitVec 1) (h0 : 0 ≤ V) (h1 : 2 * V ≤ 1) :
    IsRneD (V * 2 ^ (-1074 : ℤ)) (packD sg 0#11 0#52) := by
  have hlow : 0 = (dLow (packD sg 0#11 0#52)).toNat := by rw [dLow_packD_toNat]; rfl
  have hb : V * 2 ^ (-1074 : ℤ) < overflowBound := by
    rw [overflowBound_eq]
    refine mul_lt_mul_of_pos_right ?_ (by positivity)
    have : (1 : ℚ) ≤ 2 ^ 2044 := one_le_pow₀ one_le_two
    generalize (2 : ℚ) ^ 2044 = c at *
    linarith
  have hu0 : ((ulps 0 : Nat) : ℚ) = 0 := by rw [ulps_of_le (by decide), Nat.cast_zero]
  have hu1 : ((ulps (0 + 1) : Nat) : ℚ) = 0 + 1 := by rw [ulps_of_le (by decide)]; norm_num
  refine isRneD_of_halfUnit (K := 1) hlow (by decide) hb ?_ ?_ (fun _ => rfl) (fun _ => rfl)
    (.inr (by rw [hu0, hu1])) (.inl rfl) <;> rw [hu0] <;> linarith

/-- `overflowBound` in terms of a normalized significand and its working exponent (R119). -/
theorem overflowBound_le_iff {F : Nat} (e : ℤ) (hlo : 2 ^ 63 ≤ F) (hup : F < 2 ^ 64) :
    overflowBound ≤ (F : ℚ) * 2 ^ (e - 12) * 2 ^ (-1074 : ℤ) ↔
      2047 ≤ e ∨ (e = 2046 ∧ 0xFFFFFFFFFFFFFC00 ≤ F) := by
  have hscale : (F : ℚ) * 2 ^ (e - 12) = F * 2 ^ (e - 2046) * 2 ^ 2034 := by
    rw [mul_assoc, ← zpow_natCast (2 : ℚ) 2034, ← zpow_add₀ two_ne_zero]
    congr 2
    push_cast
    ring
  have hbound : ((2 ^ 54 - 1) * 2 ^ 2044 : ℚ) = 0xFFFFFFFFFFFFFC00 * 2 ^ 2034 := by
    rw [show 2044 = 10 + 2034 from rfl, pow_add]
    generalize (2 : ℚ) ^ 2034 = c
    ring
  rw [overflowBound_eq, mul_le_mul_iff_of_pos_right (by positivity), hscale, hbound,
    mul_le_mul_iff_of_pos_right (by positivity)]
  have hlo : (2 ^ 63 : ℚ) ≤ F := by exact_mod_cast hlo
  have hup' : (F : ℚ) < 2 ^ 64 := by exact_mod_cast hup
  rcases lt_trichotomy e 2046 with hlt | rfl | hgt
  · have hp : (2 : ℚ) ^ (e - 2046) ≤ 2 ^ (-1 : ℤ) := zpow_le_zpow_right₀ one_le_two (by omega)
    have hm : (F : ℚ) * 2 ^ (e - 2046) ≤ F * 2 ^ (-1 : ℤ) := mul_le_mul_of_nonneg_left hp (by positivity)
    refine iff_of_false (fun hc => ?_) (by omega)
    norm_num at hm
    linarith
  · simp
  · have hp : (2 : ℚ) ^ (1 : ℤ) ≤ 2 ^ (e - 2046) := zpow_le_zpow_right₀ one_le_two (by omega)
    have hm : (F : ℚ) * 2 ^ (1 : ℤ) ≤ F * 2 ^ (e - 2046) := mul_le_mul_of_nonneg_left hp (by positivity)
    refine iff_of_true ?_ (by omega)
    norm_num at hm
    linarith

/-! ### The normal path's assembly -/

/-- The rounded significand of the normal path (R91). -/
theorem rneShift_eleven_spec {F : Nat} (hlo : 2 ^ 63 ≤ F) (hup : F < 2 ^ 64) :
    2 ^ 52 ≤ rneShift F 11 ∧ rneShift F 11 ≤ 2 ^ 53 ∧ (rneShift F 11 = 2 ^ 53 ↔ 0xFFFFFFFFFFFFFC00 ≤ F) := by
  refine ⟨le_rneShift (by decide) (by omega), rneShift_le (by decide) (by omega), ?_⟩
  obtain ⟨h1, h2, h3, h4⟩ := rneShift_spec F (show 1 ≤ 11 by decide)
  omega

/-- The overflow test after rounding (R91, R119). -/
theorem roundedExp_overflow_iff {F : Nat} (e : ℤ) (hlo : 2 ^ 63 ≤ F) (hup : F < 2 ^ 64) :
    2047 ≤ roundedExp e (rneShift F 11) ↔ 2047 ≤ e ∨ (e = 2046 ∧ 0xFFFFFFFFFFFFFC00 ≤ F) := by
  obtain ⟨-, -, hcarry⟩ := rneShift_eleven_spec hlo hup
  rw [roundedExp]
  split <;> omega

theorem assembleNorm_of_overflow {sg : BitVec 1} {e : ℤ} {q : Nat} (h : 2047 ≤ roundedExp e q) :
    assembleNorm sg e q = packD sg 2047#11 0#52 := if_pos h

theorem assembleNorm_of_finite {sg : BitVec 1} {e : ℤ} {q : Nat} (h : ¬ 2047 ≤ roundedExp e q) :
    assembleNorm sg e q = packD sg (BitVec.ofInt 11 (roundedExp e q)) (BitVec.ofNat 52 (roundedMan q)) :=
  if_neg h

@[simp] theorem dSign_assembleNorm (sg : BitVec 1) (e : ℤ) (q : Nat) : dSign (assembleNorm sg e q) = sg := by
  by_cases h : 2047 ≤ roundedExp e q
  · rw [assembleNorm_of_overflow h, dSign_packD]
  · rw [assembleNorm_of_finite h, dSign_packD]

/-- A carry out of the significand lands in the exponent field (R91). -/
theorem dLow_assembleNorm_toNat (sg : BitVec 1) {e : ℤ} {q : Nat} (he : 1 ≤ e) (h1 : 2 ^ 52 ≤ q)
    (h2 : q ≤ 2 ^ 53) (h : ¬ 2047 ≤ roundedExp e q) :
    (dLow (assembleNorm sg e q)).toNat = (e - 1).toNat * 2 ^ 52 + q := by
  rw [assembleNorm_of_finite h, dLow_packD_toNat, BitVec.toNat_ofInt, BitVec.toNat_ofNat]
  rw [roundedExp] at h ⊢
  rw [roundedMan]
  split_ifs at h ⊢ <;> omega

theorem assembleNorm_eq_infinity_iff (sg : BitVec 1) {e : ℤ} {q : Nat} (he : 1 ≤ e) (h1 : 2 ^ 52 ≤ q)
    (h2 : q ≤ 2 ^ 53) : assembleNorm sg e q = packD sg 2047#11 0#52 ↔ 2047 ≤ roundedExp e q := by
  refine ⟨fun heq => ?_, assembleNorm_of_overflow⟩
  by_contra h
  have hlow := dLow_assembleNorm_toNat sg he h1 h2 h
  rw [heq, dLow_packD_infinity, BitVec.toNat_ofNat] at hlow
  rw [roundedExp] at h
  split at h <;> omega

/-! ### The paths of `X2D` against its contract -/

/-- Exponent field 0 gives the signed zero whatever the fraction (R113, R121). -/
theorem x2dResult_expZero (nan : BitVec 52) (sg : BitVec 1) (fr : BitVec 64) :
    x2dResult nan sg 0#15 fr = packD sg 0#11 0#52 := by
  by_cases hfr : fr = 0#64
  · rw [hfr]
    exact x2dResult_zero nan sg (by decide)
  obtain ⟨nz, F, hF, hlo, hup, -⟩ := exists_normalized hfr
  have hexp : (0#15).toNat = 0 := rfl
  rw [(x2dResult_sub nan sg (by decide) hF hlo hup rfl (by omega)).1]
  have hwide : 2 ^ 66 ≤ 2 ^ (12 - (((0#15).toNat : ℤ) + 1023 - 16383 - nz)).toNat :=
    Nat.pow_le_pow_right (by decide) (by omega)
  rw [rneShift_of_small (by omega) (by omega)]
  exact assembleSub_eq_packD sg (by decide)

section
variable (nan : BitVec 52) (sg : BitVec 1) {exp15 : BitVec 15} {fr : BitVec 64} {nz F : Nat} {e : ℤ}
  (h : exp15 ≠ 0x7FFF#15) (hF : F = fr.toNat * 2 ^ nz) (hlo : 2 ^ 63 ≤ F) (hup : F < 2 ^ 64)
  (he : e = (exp15.toNat : ℤ) + 1023 - 16383 - nz)
include h hF hlo hup he

theorem x2dResult_isRneD_sub (hsub : e ≤ 0) :
    IsRneD ((F : ℚ) * 2 ^ (e - 12) * 2 ^ (-1074 : ℤ)) (x2dResult nan sg exp15 fr) := by
  obtain ⟨sh, hsh⟩ : ∃ sh : Nat, 12 - e = sh := ⟨(12 - e).toNat, by omega⟩
  have hwide : 2 ^ 12 ≤ 2 ^ sh := Nat.pow_le_pow_right (by decide) (by omega)
  have hq : rneShift F sh ≤ 2 ^ 52 := rneShift_le (by omega) (by omega)
  have hlow : (dLow (assembleSub sg (rneShift F sh))).toNat = 0 * 2 ^ 52 + rneShift F sh := by
    rw [dLow_assembleSub_toNat sg (by omega), Nat.zero_mul, Nat.zero_add]
  have hV : (F : ℚ) * 2 ^ (e - 12) * 2 ^ sh = F * 2 ^ 0 := by
    rw [mul_assoc, ← zpow_natCast, ← zpow_add₀ two_ne_zero, ← hsh, sub_add_sub_cancel, sub_self, zpow_zero, pow_zero]
  rw [(x2dResult_sub nan sg h hF hlo hup he hsub).1, hsh, Int.toNat_natCast]
  exact isRneD_rneShift (by omega) hV hlow (by omega) (.inl rfl) (by omega)
    (not_le.1 (mt (overflowBound_le_iff e hlo hup).1 (by omega)))

theorem x2dResult_isRneD_norm (hnorm : 1 ≤ e) :
    IsRneD ((F : ℚ) * 2 ^ (e - 12) * 2 ^ (-1074 : ℤ)) (x2dResult nan sg exp15 fr) := by
  rw [(x2dResult_norm nan sg h hF hlo hup he hnorm).1]
  obtain ⟨h1, h2, -⟩ := rneShift_eleven_spec hlo hup
  have hover := roundedExp_overflow_iff e hlo hup
  have hbound := (overflowBound_le_iff e hlo hup).trans hover.symm
  by_cases hov : 2047 ≤ roundedExp e (rneShift F 11)
  · rw [assembleNorm_of_overflow hov]
    exact isRneD_infinity sg (hbound.2 hov)
  obtain ⟨k, rfl⟩ : ∃ k : Nat, e = k + 1 := ⟨(e - 1).toNat, by omega⟩
  have hlow := dLow_assembleNorm_toNat sg hnorm h1 h2 hov
  rw [Int.add_sub_cancel, Int.toNat_natCast] at hlow
  have hfin : k * 2 ^ 52 + rneShift F 11 < 0x7FF0000000000000 := by
    rw [roundedExp] at hov
    split at hov <;> omega
  have hV : (F : ℚ) * 2 ^ ((k : ℤ) + 1 - 12) * 2 ^ 11 = F * 2 ^ k := by
    rw [mul_assoc, ← zpow_natCast, ← zpow_natCast, ← zpow_add₀ two_ne_zero]
    congr 2
    push_cast
    ring
  exact isRneD_rneShift (by decide) hV hlow (by omega) (.inr (by omega)) hfin (not_le.1 (mt hbound.1 hov))

/-- On the finite path `X2D` gives the nearest double to the normalized magnitude (R114 to R119, R124). -/
theorem x2dResult_isRneD : IsRneD ((F : ℚ) * 2 ^ (e - 12) * 2 ^ (-1074 : ℤ)) (x2dResult nan sg exp15 fr) := by
  rcases le_or_gt e 0 with hsub | hnorm
  · exact x2dResult_isRneD_sub nan sg h hF hlo hup he hsub
  · exact x2dResult_isRneD_norm nan sg h hF hlo hup he hnorm

end

@[simp] theorem dSign_x2dResult (nan : BitVec 52) (sg : BitVec 1) (exp15 : BitVec 15) (fr : BitVec 64) :
    dSign (x2dResult nan sg exp15 fr) = sg := by
  unfold x2dResult
  split
  · split <;> exact dSign_packD ..
  · exact dSign_packD ..
  · exact dSign_assembleSub ..
  · exact dSign_assembleNorm ..

/-- Either reading of exponent field 0 lies far below half the smallest subnormal (R17). -/
theorem expZero_magnitude_le {subExp : ℤ} (h : xSubExpWf subExp = true) (fr : BitVec 64) :
    2 * ((fr.toNat : ℚ) / 2 ^ 63 * 2 ^ (subExp + 1074)) ≤ 1 := by
  have hfr : (fr.toNat : ℚ) < 2 ^ 64 := by exact_mod_cast fr.isLt
  have hexp : subExp = -16383 ∨ subExp = -16382 := of_decide_eq_true h
  have hp : (2 : ℚ) ^ (subExp + 1074) ≤ 2 ^ (-2 : ℤ) := zpow_le_zpow_right₀ one_le_two (by omega)
  have hm : (fr.toNat : ℚ) / 2 ^ 63 * 2 ^ (subExp + 1074) ≤ fr.toNat / 2 ^ 63 * 2 ^ (-2 : ℤ) :=
    mul_le_mul_of_nonneg_left hp (by positivity)
  norm_num at hm
  linarith

/-- The magnitude of an operand in units of the smallest subnormal rounds to the result of `X2D` (R124). -/
theorem x2dResult_nearest (nan : BitVec 52) (sg : BitVec 1) (exp15 : BitVec 15) (fr : BitVec 64) {subExp : ℤ}
    {v : ℚ} (hwf : xSubExpWf subExp = true) (hv : xMag subExp (packX sg exp15 fr) = some v) :
    IsRneD v (x2dResult nan sg exp15 fr) := by
  have hmax : exp15 ≠ 0x7FFF#15 := fun hc => by
    rw [xMag, xExp15_packX, if_pos hc] at hv
    cases hv
  by_cases h0 : exp15 = 0#15
  · subst h0
    rw [xMag_expZero] at hv
    obtain rfl := Option.some.inj hv
    rw [x2dResult_expZero, show subExp = subExp + 1074 + -1074 by ring, zpow_add₀ two_ne_zero, ← mul_assoc]
    exact isRneD_zero_of_le sg (by positivity) (expZero_magnitude_le hwf fr)
  by_cases hfr : fr = 0#64
  · subst hfr
    rw [xMag_normal subExp sg _ hmax h0] at hv
    obtain rfl := Option.some.inj hv
    rw [x2dResult_zero nan sg hmax]
    simpa using isRneD_zero_of_le (V := 0) sg le_rfl (by norm_num)
  · obtain ⟨nz, F, hF, hlo, hup, -⟩ := exists_normalized hfr
    rw [xMag_normalized subExp sg hmax h0 hF rfl] at hv
    obtain rfl := Option.some.inj hv
    exact x2dResult_isRneD nan sg hmax hF hlo hup rfl

/-- `X2D` meets its contract (R110, R124) for any legal NaN mantissa. -/
theorem x2dResult_roundsTo {nan : BitVec 52} (hnan : nan ≠ 0#52) (sg : BitVec 1) (exp15 : BitVec 15)
    (fr : BitVec 64) : RoundsTo (packX sg exp15 fr) (x2dResult nan sg exp15 fr) where
  sign := by rw [dSign_x2dResult, xSign_packX]
  nan h := by
    rw [xClass_packX] at h
    obtain ⟨rfl, hfr⟩ := bcdX_eq_nan_iff.1 h
    rw [x2dResult_nan nan sg hfr, dClass_packD]
    exact bcdD_eq_nan_iff.2 ⟨rfl, hnan⟩
  infinity h := by
    rw [xClass_packX] at h
    obtain ⟨rfl, rfl⟩ := bcdX_eq_infinity_iff.1 h
    rw [x2dResult_infinity, dClass_packD]
    rfl
  nearest _ _ hwf hv := x2dResult_nearest nan sg exp15 fr hwf hv

/-- Two operands that normalize to one significand with one working exponent convert alike (R122). -/
theorem x2dResult_congr_normalized (nan : BitVec 52) (sg : BitVec 1) {e1 e2 : BitVec 15} {f1 f2 : BitVec 64}
    {n1 n2 F : Nat} (h1 : e1 ≠ 0x7FFF#15) (h2 : e2 ≠ 0x7FFF#15) (hF1 : F = f1.toNat * 2 ^ n1)
    (hF2 : F = f2.toNat * 2 ^ n2) (hlo : 2 ^ 63 ≤ F) (hup : F < 2 ^ 64)
    (he : (e1.toNat : ℤ) - n1 = (e2.toNat : ℤ) - n2) : x2dResult nan sg e1 f1 = x2dResult nan sg e2 f2 := by
  obtain ⟨e, he1, he2⟩ : ∃ e : ℤ, e = (e1.toNat : ℤ) + 1023 - 16383 - n1 ∧
      e = (e2.toNat : ℤ) + 1023 - 16383 - n2 := ⟨_, rfl, by omega⟩
  rcases le_or_gt e 0 with hsub | hnorm
  · exact (x2dResult_sub nan sg h1 hF1 hlo hup he1 hsub).1.trans
      (x2dResult_sub nan sg h2 hF2 hlo hup he2 hsub).1.symm
  · exact (x2dResult_norm nan sg h1 hF1 hlo hup he1 hnorm).1.trans
      (x2dResult_norm nan sg h2 hF2 hlo hup he2 hnorm).1.symm

/-- Shifting the fraction up and lowering the exponent by as much does not change the double (R122). -/
theorem x2dResult_shifted (nan : BitVec 52) (sg : BitVec 1) {e1 e2 : BitVec 15} {f1 f2 : BitVec 64} {k : Nat}
    (h1 : e1 ≠ 0x7FFF#15) (h2 : e2 ≠ 0x7FFF#15) (he : e2.toNat + k = e1.toNat)
    (hf : f2.toNat = f1.toNat * 2 ^ k) : x2dResult nan sg e1 f1 = x2dResult nan sg e2 f2 := by
  by_cases h0 : f2 = 0#64
  · have hz : f1 = 0#64 := by
      rw [h0, BitVec.toNat_ofNat, Nat.zero_mod, eq_comm, Nat.mul_eq_zero] at hf
      exact BitVec.eq_of_toNat_eq (hf.resolve_right (by positivity))
    rw [h0, hz, x2dResult_zero nan sg h1, x2dResult_zero nan sg h2]
  · obtain ⟨nz, F, hF, hlo, hup, -⟩ := exists_normalized h0
    have hF1 : F = f1.toNat * 2 ^ (k + nz) := by rw [hF, hf, pow_add, Nat.mul_assoc]
    exact x2dResult_congr_normalized nan sg h1 h2 hF1 hF hlo hup (by omega)

/-! ### `rne_d` is a function -/

theorem dExp_ne_of_dMag {d : DPort} {m : ℚ} (h : dMag d = some m) : dExp d ≠ 2047#11 := fun hc => by
  rw [dMag_eq_none hc] at h
  cases h

/-- The order of the low 63 bits of finite doubles is the order of their magnitudes (R16). -/
theorem dMag_lt_of_dLow_lt {d d' : DPort} {m m' : ℚ} (hm : dMag d = some m) (hm' : dMag d' = some m')
    (h : (dLow d).toNat < (dLow d').toNat) : m < m' := by
  rw [dMag_eq_ulps (dExp_ne_of_dMag hm)] at hm
  rw [dMag_eq_ulps (dExp_ne_of_dMag hm')] at hm'
  obtain rfl := Option.some.inj hm
  obtain rfl := Option.some.inj hm'
  have hulps : (ulps (dLow d).toNat : ℚ) < ulps (dLow d').toNat := by exact_mod_cast ulps_strictMono h
  exact mul_lt_mul_of_pos_right hulps (by positivity)

/-- Between two even doubles lies a third, so no value halfway between them is nearest to either (R18). -/
theorem exists_nearer_of_even {v : ℚ} {d d' : DPort} {m m' : ℚ} (hm : dMag d = some m) (hm' : dMag d' = some m')
    (hlt : (dLow d).toNat < (dLow d').toNat) (he : (dLow d).toNat % 2 = 0) (he' : (dLow d').toNat % 2 = 0)
    (heq : |v - m| = |v - m'|) : ∃ d'' m'', dMag d'' = some m'' ∧ |v - m''| < |v - m| := by
  have hfin := (finite_iff_dLow d').1 (dExp_ne_of_dMag hm')
  obtain ⟨d'', hd''⟩ : ∃ d'' : DPort, (dLow d'').toNat = (dLow d).toNat + 1 :=
    ⟨assembleSub 0#1 ((dLow d).toNat + 1), dLow_assembleSub_toNat _ (by omega)⟩
  have hm'' := dMag_eq_ulps ((finite_iff_dLow d'').2 (by omega))
  have h1 := dMag_lt_of_dLow_lt hm hm'' (by omega)
  have h2 := dMag_lt_of_dLow_lt hm'' hm' (by omega)
  have hmid : 2 * v = m + m' := by
    rcases abs_eq_abs.1 heq with h | h <;> linarith
  refine ⟨d'', _, hm'', ?_⟩
  rw [abs_of_pos (by linarith : 0 < v - m), abs_lt]
  constructor <;> linarith

end Sys2Proof.Machine

/-! ## Runs, each pair on its own inputs alone (70_reset_and_hazards.md R162, R163, R169) -/

namespace Sys2Proof.Machine

/-- What every step drives for a setting of the input ports: a function of that setting alone (R12). -/
def settledOutputs (p : InPorts) : OutPorts := outputsOf (decode p.word)

/-- The outputs of the decoded transaction are those the rules ask for (R30, R160). -/
theorem settledOutputs_settled (p : InPorts) : PortsSettled p (settledOutputs p) where
  x2d h := by
    rw [settledOutputs, decode_word_x2d h]
    have hr := x2dResult_roundsTo dNanMant_ne_zero (xSign p.xIn) (xExp15 p.xIn) (xFrac p.xIn)
    rw [packX_fields] at hr
    exact ⟨hr, rfl, rfl⟩
  d2x h := by
    rw [settledOutputs, decode_word_d2x h]
    have hr := d2xResult_exactlyEquals (dSign p.dIn) (dExp p.dIn) (dMan p.dIn)
    rw [packD_fields] at hr
    exact ⟨hr, rfl, rfl⟩

/-- A run is observed as `settledOutputs` of each transaction presented. -/
theorem observe_eq_map (k : Nat) (s : State) :
    observe k s = (s.presented k).map fun p => (p, settledOutputs p) := by
  induction k generalizing s with
  | zero => rw [presented_zero]; rfl
  | succ k ih =>
    cases h : s.present with
    | none => rw [observe_of_over _ h, presented_of_present_none _ h, List.map_nil]
    | some t =>
      rw [observe_of_present k h, ih, presented_succ k h]
      rfl

/-- The run from `s` that presents the settings `env 0`, `env 1` and so on without end. -/
def endlessRun (env : Nat → InPorts) (s : State) : Nat → State
  | 0 => s
  | k + 1 => { endlessRun env s k with inp := env k, out := settledOutputs (env k) }

theorem endlessRun_isEndlessRun (env : Nat → InPorts) (s : State) : IsEndlessRun env (endlessRun env s) :=
  fun k => step_enqueueFirst (endlessRun env s k) (env k)

end Sys2Proof.Machine

/-! ## The obligations of 00_scope.md -/

namespace Sys2Proof.Settled

open Sys2Proof.Machine

/-- Settles O6: the environment's move puts the transaction on the ports, and the step decodes those. -/
theorem stepRunsPresentedTransaction : Obligations.StepRunsPresentedTransaction := by
  intro s
  refine ⟨?_, ?_, fun hp hl => step_of_over (present_of_ended hp hl)⟩
  · rintro p rest _ hp rfl
    rw [step_eq_exec (present_of_cons hp)]
  · rintro k _ hp hl rfl
    rw [step_eq_exec (present_of_endless hp hl), word_ofWord]

/-- Settles O7: the placed setting is the first of those listed, so the next step decodes it. -/
theorem placedWordRunsNext : Obligations.PlacedWordRunsNext := by
  intro s nbits w i hn hw hi
  rw [decodeTableWord_of_lt hn hw] at hi
  obtain rfl := Option.some.inj hi
  refine ⟨?_, word_ofWord _⟩
  rw [State.withFetchWord, tableBits_of_lt hn hw, step_eq_exec (present_of_cons (enqueueFirst_pending _ _)),
    word_ofWord]
  rfl

/-- Settles O9: by the inversions of `exec` and of `step`. -/
theorem transactionChangesOnlyOutputs : Obligations.TransactionChangesOnlyOutputs := by
  refine ⟨fun i s s' h => ?_, fun s s' h => ?_⟩
  · obtain rfl := exec_next h
    exact ⟨rfl, rfl, rfl⟩
  obtain ⟨t, ht, rfl⟩ | ⟨hover, rfl⟩ := step_next h
  · refine ⟨(present_pending ht :), fun p rest hp => ?_, fun k hp hl => ?_, fun hp hl => ?_⟩
    · obtain rfl := Option.some.inj (ht.symm.trans (present_of_cons hp))
      exact ⟨rfl, rfl⟩
    · obtain rfl := Option.some.inj (ht.symm.trans (present_of_endless hp hl))
      exact ⟨rfl, rfl⟩
    · cases ht.symm.trans (present_of_ended hp hl)
  · obtain ⟨hp, hl⟩ := present_eq_none.1 hover
    simp [hp, hl]

/-- Settles O11: a step that runs a transaction drives `settledOutputs`, and any other changes nothing. -/
theorem stepSettlesThePorts : Obligations.StepSettlesThePorts := by
  refine ⟨fun s s' hs h => ?_, fun s t ht => ⟨_, step_of_present ht, settledOutputs_settled t.inp⟩⟩
  obtain ⟨t, -, rfl⟩ | ⟨-, rfl⟩ := step_next h
  · exact settledOutputs_settled t.inp
  · exact hs

/-- Settles O13: the one function is `settledOutputs`, by induction on the number of transactions observed. -/
theorem runObservesEachTransactionAlone : Obligations.RunObservesEachTransactionAlone :=
  ⟨settledOutputs, settledOutputs_settled, observe_eq_map⟩

/-- Settles O57: the run is `endlessRun`, and a step fixes the next state of every other. -/
theorem everyEndlessChoiceRuns : Obligations.EveryEndlessChoiceRuns := by
  refine ⟨settledOutputs, settledOutputs_settled, fun env =>
    ⟨fun s => ⟨endlessRun env s, rfl, endlessRun_isEndlessRun env s⟩, fun run hrun k => ?_⟩⟩
  rw [← Host.Outcome.next.inj ((step_enqueueFirst (run k) (env k)).symm.trans (hrun k))]
  exact ⟨rfl, rfl⟩

/-- Settles O19: by the five cases of `D2X`. -/
theorem d2xIsExact : Obligations.D2xIsExact := by
  intro d x s
  have h := d2xResult_exactlyEquals (dSign d) (dExp d) (dMan d)
  rw [packD_fields] at h
  exact ⟨_, exec_d2x .., h⟩

/-- Settles O15: the normalizer applied to the mantissa. -/
theorem d2xSubnormal : Obligations.D2xSubnormal := by
  intro sg dman x s h
  obtain ⟨hge, hle, hF, hlo, hexp⟩ := d2xSubnormal_spec h
  refine ⟨_, (Machine.d2xSubnormal dman).1, (Machine.d2xSubnormal dman).2, _, exec_d2x .., ?_, rfl, hge, hle, hF,
    ?_, hexp, by omega, by omega, ?_, ?_⟩
  · rw [d2xOutputs_xOut, d2xResult, d2xFields_subnormal h]
    rfl
  · rw [getLsbD_iff_mod]
    omega
  · rw [hF, Nat.cast_mul, Nat.cast_pow, Nat.cast_ofNat, subnormal_value_eq _ hexp]
  · exact bcdX_eq_normal_iff.2 (exp15_of_range (by omega) (by omega))

/-- Settles O33: special operands by the class, all others by the nearest double on each path. -/
theorem x2dIsCorrectlyRounded : Obligations.X2dIsCorrectlyRounded := by
  intro x d s
  have h := x2dResult_roundsTo dNanMant_ne_zero (xSign x) (xExp15 x) (xFrac x)
  rw [packX_fields] at h
  exact ⟨_, exec_x2d .., h⟩

/-- Settles O22: the mantissa is the model's open constant, which is not zero. -/
theorem x2dNaN : Obligations.X2dNaN :=
  ⟨Config.dNanMant, dNanMant_ne_zero, fun sg _ _ _ h => ⟨_, exec_x2d .., x2dResult_nan Config.dNanMant sg h⟩⟩

/-- Settles O28: the overflow test after rounding, in terms of `e` and `F` and in terms of the magnitude. -/
theorem x2dOverflow : Obligations.X2dOverflow := by
  intro sg exp15 fr d s nz F e h hF hlo hup he hnorm
  have hres := (x2dResult_norm Config.dNanMant sg h hF hlo hup he hnorm).1
  obtain ⟨h1, h2, -⟩ := rneShift_eleven_spec hlo hup
  have hinf : x2dResult Config.dNanMant sg exp15 fr = packD sg 2047#11 0#52 ↔
      2047 ≤ e ∨ (e = 2046 ∧ 0xFFFFFFFFFFFFFC00 ≤ F) := by
    rw [hres, assembleNorm_eq_infinity_iff sg hnorm h1 h2, roundedExp_overflow_iff e hlo hup]
  refine ⟨_, exec_x2d .., hinf, ?_, fun subExp v _ hv => ?_⟩
  · rintro rfl rfl
    rw [x2dOutputs_dOut, hres]
    rfl
  · have h0 : exp15 ≠ 0#15 := by
      rintro rfl
      rw [BitVec.toNat_ofNat] at he
      omega
    rw [xMag_normalized subExp sg h h0 hF he] at hv
    obtain rfl := Option.some.inj hv
    exact hinf.trans (overflowBound_le_iff e hlo hup).symm

/-- Settles O29: both operands normalize to one significand with one working exponent. -/
theorem x2dUnnormalConvertsAsNormalized : Obligations.X2dUnnormalConvertsAsNormalized := by
  intro sg exp15 fr d s k h hk hlt
  have hmax : exp15.toNat ≠ 32767 := fun hc => h (BitVec.eq_of_toNat_eq hc)
  have hexp : (exp15 - BitVec.ofNat 15 k).toNat = exp15.toNat - k := by
    rw [BitVec.toNat_sub, BitVec.toNat_ofNat]
    omega
  have hfr : (BitVec.ofNat 64 (fr.toNat * 2 ^ k)).toNat = fr.toNat * 2 ^ k := by
    rw [BitVec.toNat_ofNat, Nat.mod_eq_of_lt hlt]
  have hrange := exp15_of_range (e := exp15) (by omega) (by omega)
  have hrange' := exp15_of_range (e := exp15 - BitVec.ofNat 15 k) (by omega) (by omega)
  exact ⟨_, _, exec_x2d .., exec_x2d .., x2dResult_shifted _ sg hrange.1 hrange'.1 (by omega) hfr,
    bcdX_eq_normal_iff.2 hrange, bcdX_eq_normal_iff.2 hrange'⟩

/-- Settles O35: two doubles nearest to one value are both even, and then a third is nearer. -/
theorem nearestDoubleIsUnique : Obligations.NearestDoubleIsUnique := by
  intro v d d' h h'
  rw [IsRneD] at h h'
  by_cases hb : overflowBound ≤ v
  · rw [if_pos hb] at h h'
    exact h.trans h'.symm
  rw [if_neg hb] at h h'
  obtain ⟨m, hm, hmin⟩ := h
  obtain ⟨m', hm', hmin'⟩ := h'
  by_contra hne
  have hmm : m ≠ m' := fun hc => hne (dLow_eq_of_dMag_eq hm (hc ▸ hm'))
  have heq : |v - m| = |v - m'| := le_antisymm (hmin d' m' hm').1 (hmin' d m hm).1
  have heven := (getLsbD_zero_iff d).1 ((hmin d' m' hm').2 heq.symm hmm.symm)
  have heven' := (getLsbD_zero_iff d').1 ((hmin' d m hm).2 heq hmm)
  rcases Nat.lt_or_gt_of_ne (mt BitVec.eq_of_toNat_eq hne) with hlt | hgt
  · obtain ⟨d'', m'', hm'', hlt⟩ := exists_nearer_of_even hm hm' hlt heven heven' heq
    exact absurd (hmin d'' m'' hm'').1 (not_le.2 hlt)
  · obtain ⟨d'', m'', hm'', hlt⟩ := exists_nearer_of_even hm' hm hgt heven' heven heq.symm
    exact absurd (hmin' d'' m'' hm'').1 (not_le.2 hlt)

/-- Settles O50: the integer significand is the fraction scaled by `2^63`. -/
theorem decompositionGivesMagnitude : Obligations.DecompositionGivesMagnitude := by
  intro x subExp h1 h2
  obtain ⟨hmax, hzero⟩ := exp15_of_range h1 h2
  have hmag : ∀ z, xMag z x = some ((integerSignificand x : ℚ) / 2 ^ 63 * 2 ^ unbiasedExponent x) := fun z => by
    rw [xMag, if_neg hmax, if_neg hzero]
    rfl
  have hint : (integerSignificand x : ℚ) / 2 ^ 63 * 2 ^ unbiasedExponent x =
      integerSignificand x * 2 ^ integerExponent x := by
    rw [show integerExponent x = unbiasedExponent x - 63 from rfl, zpow_sub₀ two_ne_zero]
    ring
  have hsign : decomposedSign x = true ↔ xSign x = 1#1 := by
    rw [decomposedSign, getLsbD_iff_mod, ← BitVec.toNat_inj, xSign_toNat]
    rfl
  refine ⟨hint ▸ hmag subExp, hmag subExp, hsign, ?_⟩
  rw [xVal, hmag, Option.map_some, hint]
  by_cases hs : xSign x = 1#1
  · rw [if_pos hs, if_pos (hsign.2 hs), neg_one_mul]
  · rw [if_neg hs, if_neg (mt hsign.1 hs), one_mul]

end Sys2Proof.Settled

/-! ## The class table and the codes on `cls` (10_state.md R29, 40_datapath_blocks.md R80, R81) -/

namespace Sys2Proof.Machine

/-- The table of R29: each code is that of one class. -/
theorem clsCode_table (c : Cls) :
    (clsCode c = 0#3 ↔ c = .zero) ∧ (clsCode c = 1#3 ↔ c = .subnormal) ∧ (clsCode c = 2#3 ↔ c = .normal) ∧
      (clsCode c = 3#3 ↔ c = .infinity) ∧ (clsCode c = 4#3 ↔ c = .nan) := by
  cases c <;> decide

/-- Codes 5, 6 and 7 are never driven (93_implementation_defined.md U11). -/
theorem clsCode_toNat_le (c : Cls) : (clsCode c).toNat ≤ 4 := by
  cases c <;> decide

theorem bcdX_eq_zero_iff {e : BitVec 15} {f : BitVec 64} : bcdX e f = .zero ↔ e = 0#15 ∧ f = 0#64 := by
  unfold bcdX
  split_ifs <;> simp_all [expMaxX, expZeroX, frZero]

theorem bcdX_eq_subnormal_iff {e : BitVec 15} {f : BitVec 64} :
    bcdX e f = .subnormal ↔ e = 0#15 ∧ f ≠ 0#64 := by
  unfold bcdX
  split_ifs <;> simp_all [expMaxX, expZeroX, frZero]

theorem bcdX_eq_normal_iff_range {e : BitVec 15} {f : BitVec 64} :
    bcdX e f = .normal ↔ 1 ≤ e.toNat ∧ e.toNat ≤ 32766 := by
  rw [bcdX_eq_normal_iff, ne_eq, ne_eq, BitVec.toNat_eq, BitVec.toNat_eq, BitVec.toNat_ofNat, BitVec.toNat_ofNat]
  omega

theorem bcdD_eq_zero_iff {e : BitVec 11} {m : BitVec 52} : bcdD e m = .zero ↔ e = 0#11 ∧ m = 0#52 := by
  unfold bcdD
  split_ifs <;> simp_all [expMaxD, expZeroD, manZero]

theorem bcdD_eq_subnormal_iff {e : BitVec 11} {m : BitVec 52} :
    bcdD e m = .subnormal ↔ e = 0#11 ∧ m ≠ 0#52 := by
  unfold bcdD
  split_ifs <;> simp_all [expMaxD, expZeroD, manZero]

theorem bcdD_eq_normal_iff {e : BitVec 11} {m : BitVec 52} : bcdD e m = .normal ↔ e ≠ 2047#11 ∧ e ≠ 0#11 := by
  unfold bcdD
  split_ifs <;> simp_all [expMaxD, expZeroD]

theorem bcdD_eq_normal_iff_range {e : BitVec 11} {m : BitVec 52} :
    bcdD e m = .normal ↔ 1 ≤ e.toNat ∧ e.toNat ≤ 2046 := by
  rw [bcdD_eq_normal_iff, ne_eq, ne_eq, BitVec.toNat_eq, BitVec.toNat_eq, BitVec.toNat_ofNat, BitVec.toNat_ofNat]
  omega

end Sys2Proof.Machine

/-! ## The obligations of 10_state.md -/

namespace Sys2Proof.Settled

open Sys2Proof.Machine

/-- Settles O45: the table of the codes, then each class by the fields of the operand. -/
theorem classAndUnselectedPort : Obligations.ClassAndUnselectedPort := by
  refine ⟨fun sg exp15 fr d s => ⟨_, exec_x2d .., rfl, ?_⟩, fun sg dexp dman x s => ⟨_, exec_d2x .., rfl, ?_⟩⟩
  · simp only [x2dOutputs_cls, clsCode_table, clsCode_toNat_le, bcdX_eq_zero_iff, bcdX_eq_subnormal_iff,
      bcdX_eq_normal_iff_range, bcdX_eq_infinity_iff, bcdX_eq_nan_iff, and_true]
    simp only [ne_eq, BitVec.toNat_eq, BitVec.toNat_ofNat, Nat.reducePow, Nat.reduceMod, and_self]
  · simp only [d2xOutputs_cls, clsCode_table, clsCode_toNat_le, bcdD_eq_zero_iff, bcdD_eq_subnormal_iff,
      bcdD_eq_normal_iff_range, bcdD_eq_infinity_iff, bcdD_eq_nan_iff, and_true]
    simp only [ne_eq, BitVec.toNat_eq, BitVec.toNat_ofNat, Nat.reducePow, Nat.reduceMod, and_self]

/-- Settles O12: the reset's outputs are `settledOutputs` of its inputs, and its run is over at once. -/
theorem powerUpIsSettled : Obligations.PowerUpIsSettled := by
  have hout : State.reset.out = settledOutputs State.reset.inp := rfl
  refine ⟨?_, step_of_over (present_of_ended rfl rfl)⟩
  rw [State.Settled, hout]
  exact settledOutputs_settled State.reset.inp

/-- Settles O42: `toDouble` and `fromDouble` are the two results, and the port packing has an inverse. -/
theorem entryPointsAreTheOperations : Obligations.EntryPointsAreTheOperations :=
  ⟨fun _ _ _ => ⟨_, exec_x2d .., rfl⟩, fun _ _ _ => ⟨_, exec_d2x .., (portOfValue_valueOfPort _).symm⟩,
    portOfValue_valueOfPort, valueOfPort_portOfValue⟩

end Sys2Proof.Settled

/-! ## The bytes of a port and the codec's buffers (20_memory.md R40 to R46) -/

namespace Sys2Proof.Machine

/-! ### A buffer as one big-endian number -/

theorem bufferNumber_lt (buf : List Byte) : bufferNumber buf < 256 ^ buf.length := by
  induction buf with
  | nil => exact Nat.one_pos
  | cons b rest ih =>
    have hb : (b.toNat + 1) * 256 ^ rest.length ≤ 256 * 256 ^ rest.length :=
      Nat.mul_le_mul_right _ b.isLt
    rw [bufferNumber, List.length_cons, pow_succ']
    rw [Nat.succ_mul] at hb
    omega

/-- The first byte and the rest are quotient and remainder of a buffer's number. -/
theorem bufferNumber_cons_div_mod (b : Byte) (rest : List Byte) :
    bufferNumber (b :: rest) / 256 ^ rest.length = b.toNat ∧
      bufferNumber (b :: rest) % 256 ^ rest.length = bufferNumber rest :=
  (Nat.div_mod_unique (by positivity)).2
    ⟨by rw [bufferNumber, add_comm, mul_comm], bufferNumber_lt rest⟩

/-- Buffers of one length are told apart by their numbers. -/
theorem bufferNumber_inj {buf buf' : List Byte} (hlen : buf.length = buf'.length)
    (h : bufferNumber buf = bufferNumber buf') : buf = buf' := by
  induction buf generalizing buf' with
  | nil => exact (List.length_eq_zero_iff.1 hlen.symm).symm
  | cons b rest ih =>
    cases buf' with
    | nil => cases hlen
    | cons b' rest' =>
      have hlen := Nat.succ.inj hlen
      obtain ⟨hdiv, hmod⟩ := bufferNumber_cons_div_mod b rest
      obtain ⟨hdiv', hmod'⟩ := bufferNumber_cons_div_mod b' rest'
      rw [h, hlen] at hdiv hmod
      rw [BitVec.eq_of_toNat_eq (hdiv.symm.trans hdiv'), ih hlen (hmod.symm.trans hmod')]

/-! ### The low bytes of a port, from the top -/

/-- The low `n` bytes of a port, the highest first. -/
def lowBytes (x : XPort) : Nat → List Byte
  | 0 => []
  | n + 1 => x.extractLsb' (8 * n) 8 :: lowBytes x n

@[simp] theorem length_lowBytes (x : XPort) (n : Nat) : (lowBytes x n).length = n := by
  induction n with
  | zero => rfl
  | succ n ih => rw [lowBytes, List.length_cons, ih]

theorem lowBytes_getElem? (x : XPort) {n i : Nat} (h : i < n) :
    (lowBytes x n)[i]? = some (x.extractLsb' (8 * (n - 1 - i)) 8) := by
  induction n generalizing i with
  | zero => cases h
  | succ n ih =>
    cases i with
    | zero => rfl
    | succ i =>
      rw [lowBytes, List.getElem?_cons_succ, ih (by omega), show n - 1 - i = n + 1 - 1 - (i + 1) by omega]

theorem bufferNumber_lowBytes (x : XPort) (n : Nat) : bufferNumber (lowBytes x n) = x.toNat % 256 ^ n := by
  induction n with
  | zero => rw [pow_zero, Nat.mod_one]; rfl
  | succ n ih =>
    rw [lowBytes, bufferNumber, length_lowBytes, ih, toNat_extract_eq, pow_mul, pow_succ 256, Nat.mod_mul,
      add_comm, mul_comm]
    rfl

/-! ### Encoding -/

theorem portOfValue_extract_low (v : ExtendedValue) {i : Nat} (h : i + 8 ≤ 64) :
    (portOfValue v).extractLsb' i 8 = v.fraction.extractLsb' i 8 :=
  BitVec.extractLsb'_append_eq_of_add_le h

theorem portOfValue_extract_high (v : ExtendedValue) (i : Nat) :
    (portOfValue v).extractLsb' (64 + i) 8 = v.signExponent.extractLsb' i 8 := by
  rw [portOfValue, BitVec.extractLsb'_append_eq_of_le (Nat.le_add_right ..), Nat.add_sub_cancel_left]

/-- The big-endian buffer is the ten bytes of the port, the highest first (R41). -/
theorem encodeBE_eq_lowBytes (v : ExtendedValue) : encodeBE v = lowBytes (portOfValue v) 10 := by
  have hlow : ∀ i, i < 8 → (portOfValue v).extractLsb' (8 * i) 8 = v.fraction.extractLsb' (8 * i) 8 :=
    fun i hi => portOfValue_extract_low v (by omega)
  simp only [lowBytes, hlow, Nat.reduceLT]
  rw [portOfValue_extract_high v 0, portOfValue_extract_high v 8]
  rfl

@[simp] theorem length_encodeBE (v : ExtendedValue) : (encodeBE v).length = 10 := rfl

/-- The buffer read as one big-endian number is the port's value (R41). -/
theorem bufferNumber_encodeBE (v : ExtendedValue) : bufferNumber (encodeBE v) = (portOfValue v).toNat := by
  rw [encodeBE_eq_lowBytes, bufferNumber_lowBytes]
  exact Nat.mod_eq_of_lt (portOfValue v).isLt

/-- The little-endian buffer is the big-endian one reversed (R42). -/
theorem encodeLE_eq_reverse (v : ExtendedValue) : encodeLE v = (encodeBE v).reverse := rfl

theorem portOfValue_toNat_inj {v w : ExtendedValue} (h : (portOfValue v).toNat = (portOfValue w).toNat) : v = w := by
  rw [← valueOfPort_portOfValue v, BitVec.eq_of_toNat_eq h, valueOfPort_portOfValue]

/-! ### Decoding -/

/-- A buffer of ten bytes decodes to the value whose port is the buffer's number (R43). -/
theorem decodeBE_of_length {buf : List Byte} (h : buf.length = 10) :
    ∃ v, decodeBE buf = .ok v ∧ (portOfValue v).toNat = bufferNumber buf := by
  match buf, h with
  | [b0, b1, b2, b3, b4, b5, b6, b7, b8, b9], _ =>
    refine ⟨_, rfl, ?_⟩
    rw [portOfValue_toNat]
    simp only [toNat_append_eq, bufferNumber, List.length_cons, List.length_nil]
    omega

/-- A buffer of another size is refused (R46). -/
theorem decodeBE_of_length_ne {buf : List Byte} (h : buf.length ≠ 10) : decodeBE buf = .error .invalidArgument := by
  unfold decodeBE
  split
  · exact absurd rfl h
  · rfl

/-- Little-endian decoding reads the bytes reversed, whatever the buffer's size (R45). -/
theorem decodeLE_eq_reverse (buf : List Byte) : decodeLE buf = decodeBE buf.reverse := by
  unfold decodeLE
  split
  case h_1 => rfl
  case h_2 hne =>
    refine (decodeBE_of_length_ne fun hlen => ?_).symm
    match buf, (List.length_reverse ▸ hlen : buf.length = 10) with
    | [b0, b1, b2, b3, b4, b5, b6, b7, b8, b9], _ => exact hne _ _ _ _ _ _ _ _ _ _ rfl

/-- A buffer of ten bytes is the encoding of the value it decodes to (R44). -/
theorem decodeBE_encodeBE_of_length {buf : List Byte} (h : buf.length = 10) :
    ∃ v, decodeBE buf = .ok v ∧ encodeBE v = buf := by
  obtain ⟨v, hv, hnum⟩ := decodeBE_of_length h
  exact ⟨v, hv, bufferNumber_inj h.symm ((bufferNumber_encodeBE v).trans hnum)⟩

/-- Decoding gives back the encoded value: both have the same port (R44). -/
@[simp] theorem decodeBE_encodeBE (v : ExtendedValue) : decodeBE (encodeBE v) = .ok v := by
  obtain ⟨w, hw, hnum⟩ := decodeBE_of_length (length_encodeBE v)
  rw [hw, portOfValue_toNat_inj (hnum.trans (bufferNumber_encodeBE v))]

@[simp] theorem decodeLE_encodeLE (v : ExtendedValue) : decodeLE (encodeLE v) = .ok v := by
  rw [decodeLE_eq_reverse, encodeLE_eq_reverse, List.reverse_reverse, decodeBE_encodeBE]

theorem decodeLE_encodeLE_of_length {buf : List Byte} (h : buf.length = 10) :
    ∃ v, decodeLE buf = .ok v ∧ encodeLE v = buf := by
  obtain ⟨v, hv, hbuf⟩ := decodeBE_encodeBE_of_length (List.length_reverse.trans h)
  exact ⟨v, (decodeLE_eq_reverse buf).trans hv, by rw [encodeLE_eq_reverse, hbuf, List.reverse_reverse]⟩

theorem decodeLE_of_length_ne {buf : List Byte} (h : buf.length ≠ 10) : decodeLE buf = .error .invalidArgument := by
  rw [decodeLE_eq_reverse]
  exact decodeBE_of_length_ne (by rwa [List.length_reverse])

end Sys2Proof.Machine

/-! ## The obligations of 20_memory.md -/

namespace Sys2Proof.Settled

open Sys2Proof.Machine

/-- Settles O51: the buffer is the port's ten bytes from the top, so its number is the port's. -/
theorem bigEndianLayout : Obligations.BigEndianLayout := by
  intro v
  refine ⟨length_encodeBE v, rfl, fun i hi => ?_, bufferNumber_encodeBE v⟩
  rw [encodeBE_eq_lowBytes, lowBytes_getElem? _ hi, show 8 * (10 - 1 - i) = 72 - 8 * i by omega]

/-- Settles O52: the bytes from the bottom are those from the top at the mirrored index. -/
theorem littleEndianLayout : Obligations.LittleEndianLayout := by
  intro v
  refine ⟨rfl, encodeLE_eq_reverse v, fun i hi => ?_⟩
  rw [encodeLE_eq_reverse, List.getElem?_reverse (by rwa [length_encodeBE]), length_encodeBE,
    encodeBE_eq_lowBytes, lowBytes_getElem? _ (by omega), show 10 - 1 - (10 - 1 - i) = i by omega]

/-- Settles O53: in either order the buffer and the port hold the same number. -/
theorem byteRoundTrip : Obligations.ByteRoundTrip := by
  intro order
  cases order with
  | big => exact ⟨decodeBE_encodeBE, fun _ hwf => decodeBE_encodeBE_of_length (beq_iff_eq.1 hwf)⟩
  | little => exact ⟨decodeLE_encodeLE, fun _ hwf => decodeLE_encodeLE_of_length (beq_iff_eq.1 hwf)⟩

/-- Settles O54: both mixed readings decode the reversed big-endian bytes as big-endian. -/
theorem mixedOrderReadsReversed : Obligations.MixedOrderReadsReversed := by
  refine ⟨decodeLE_eq_reverse, fun v => ?_⟩
  obtain ⟨w, hw, hbuf⟩ := decodeBE_encodeBE_of_length (List.length_reverse.trans (length_encodeBE v))
  exact ⟨w, (decodeLE_eq_reverse _).trans hw, hw, hbuf⟩

/-- Settles O55: the size check of `decodeBE`, and `decodeLE` reads the reverse, of the same size. -/
theorem wrongSizeBufferIsInvalidArgument : Obligations.WrongSizeBufferIsInvalidArgument := by
  intro order buf h
  cases order with
  | big => exact decodeBE_of_length_ne h
  | little => exact decodeLE_of_length_ne h

end Sys2Proof.Settled

/-! ## Decoding and encoding transaction words (30_encoding.md R60 to R68) -/

namespace Sys2Proof.Machine

/-! ### An instruction and its setting of the ports -/

@[simp] theorem x2dOf_packX (sg : BitVec 1) (e : BitVec 15) (f : BitVec 64) (d : DPort) :
    x2dOf (packX sg e f) d = .x2d sg e f d := by
  rw [x2dOf, xSign_packX, xExp15_packX, xFrac_packX]

@[simp] theorem d2xOf_packD (sg : BitVec 1) (e : BitVec 11) (m : BitVec 52) (x : XPort) :
    d2xOf (packD sg e m) x = .d2x sg e m x := by
  rw [d2xOf, dSign_packD, dExp_packD, dMan_packD]

/-- The row of `X2D` (R65) is the word of a setting of the ports with `op = 0`. -/
theorem encode_x2d (sg : BitVec 1) (e : BitVec 15) (f : BitVec 64) (d : DPort) :
    encode (.x2d sg e f d) = InPorts.word { op := 0#1, xIn := packX sg e f, dIn := d } := by
  apply BitVec.eq_of_toNat_eq
  simp only [encode_x2d_toNat, word_toNat, packX_toNat, BitVec.toNat_ofNat]
  omega

/-- The row of `D2X` (R65) is the word of a setting of the ports with `op = 1`. -/
theorem encode_d2x (sg : BitVec 1) (e : BitVec 11) (m : BitVec 52) (x : XPort) :
    encode (.d2x sg e m x) = InPorts.word { op := 1#1, xIn := x, dIn := packD sg e m } := by
  apply BitVec.eq_of_toNat_eq
  simp only [encode_d2x_toNat, word_toNat, packD_toNat, BitVec.toNat_ofNat]
  omega

theorem encode_x2dOf (x : XPort) (d : DPort) :
    encode (x2dOf x d) = InPorts.word { op := 0#1, xIn := x, dIn := d } := by
  rw [x2dOf, encode_x2d, packX_fields]

theorem encode_d2xOf (d : DPort) (x : XPort) :
    encode (d2xOf d x) = InPorts.word { op := 1#1, xIn := x, dIn := d } := by
  rw [d2xOf, encode_d2x, packD_fields]

/-- A slice of `TW[143:64]` is the slice of `x_in` 64 places lower (R60). -/
theorem word_extract_xIn (p : InPorts) {i k : Nat} (h : i + k ≤ 80) :
    p.word.extractLsb' (64 + i) k = p.xIn.extractLsb' i k := by
  rw [InPorts.word, BitVec.extractLsb'_append_eq_of_le (Nat.le_add_right ..), Nat.add_sub_cancel_left,
    BitVec.extractLsb'_append_eq_of_add_le h]

/-! ### The round trips -/

theorem wellFormed_eq_true (i : Instr) : i.wellFormed = true := by
  cases i <;> rfl

@[simp] theorem decode_encode (i : Instr) : decode (encode i) = i := by
  cases i with
  | x2d sg e f d => rw [encode_x2d, decode_word_x2d rfl, x2dOf_packX]
  | d2x sg e m x => rw [encode_d2x, decode_word_d2x rfl, d2xOf_packD]

theorem encode_decode_word (p : InPorts) : encode (decode p.word) = p.word := by
  obtain ⟨op, x, d⟩ := p
  obtain rfl | rfl := BitVec.eq_zero_or_eq_one op
  · rw [decode_word_x2d rfl, encode_x2dOf]
  · rw [decode_word_d2x rfl, encode_d2xOf]

/-- Every word is the word of a setting of the ports, so the settings' round trip is that of all words. -/
@[simp] theorem encode_decode (tw : TxWord) : encode (decode tw) = tw := by
  rw [← word_ofWord tw, encode_decode_word]

/-! ### The opcode map -/

theorem decode_eq_x2d_iff (tw : TxWord) : (∃ sg e f d, decode tw = .x2d sg e f d) ↔ twOp tw = 0#1 := by
  constructor
  · rintro ⟨sg, e, f, d, h⟩
    rw [← encode_decode tw, h]
    exact Laws.OpField.x2d sg e f d
  · exact fun h => ⟨_, _, _, _, if_pos h⟩

theorem decode_eq_d2x_iff (tw : TxWord) : (∃ sg e m x, decode tw = .d2x sg e m x) ↔ twOp tw = 1#1 := by
  constructor
  · rintro ⟨sg, e, m, x, h⟩
    rw [← encode_decode tw, h]
    exact Laws.OpField.d2x sg e m x
  · exact fun h => ⟨_, _, _, _, if_neg (by rw [h]; decide)⟩

/-- The word under the mask of the opcode table keeps the operation bit and nothing else (R65). -/
theorem and_opMask (tw : TxWord) :
    tw &&& BitVec.ofNat 145 (2 ^ 144) = if twOp tw = 1#1 then BitVec.ofNat 145 (2 ^ 144) else 0#145 := by
  have hbit : tw.getLsbD 144 = true ↔ twOp tw = 1#1 := by
    rw [getLsbD_iff_mod, ← BitVec.toNat_inj, twOp_toNat, BitVec.toNat_ofNat]
    have := tw.isLt
    omega
  rw [show BitVec.ofNat 145 (2 ^ 144) = BitVec.twoPow 145 144 by decide, BitVec.and_twoPow]
  simp only [hbit]

theorem and_opMask_eq_zero_iff (tw : TxWord) : tw &&& BitVec.ofNat 145 (2 ^ 144) = 0#145 ↔ twOp tw = 0#1 := by
  rw [and_opMask]
  obtain h | h := BitVec.eq_zero_or_eq_one (twOp tw) <;> rw [h] <;> decide

theorem and_opMask_eq_mask_iff (tw : TxWord) :
    tw &&& BitVec.ofNat 145 (2 ^ 144) = BitVec.ofNat 145 (2 ^ 144) ↔ twOp tw = 1#1 := by
  rw [and_opMask]
  obtain h | h := BitVec.eq_zero_or_eq_one (twOp tw) <;> rw [h] <;> decide

/-! ### Numbers that are no transaction word -/

/-- A number with a bit above `TW[144]` is rejected (R68, notes/assumptions/8.md). -/
theorem decodeTableWord_of_ge {nbits w : Nat} (hw : 2 ^ 145 ≤ w) (hlt : w < 2 ^ nbits) :
    decodeTableWord nbits w = none := by
  have hbits : tableBits nbits w = w := Nat.mod_eq_of_lt hlt
  have hwf : ¬ txWordWf w = true := by rw [txWordWf, decide_eq_true_iff]; omega
  rw [decodeTableWord, hbits, decodeWord, if_neg hwf]

end Sys2Proof.Machine

/-! ## The obligations of 30_encoding.md -/

namespace Sys2Proof.Settled

open Sys2Proof.Machine

/-- Settles O4: instructions and words are both the settings of the three ports. -/
theorem decodeAndEncodeAgree : Obligations.DecodeAndEncodeAgree :=
  ⟨fun i => ⟨wellFormed_eq_true i, decode_encode i⟩, encode_decode⟩

/-- Settles O3: masked word and decoded operation both turn on the operation bit, which is 0 or 1. -/
theorem opcodeMapCoversEveryWord : Obligations.OpcodeMapCoversEveryWord := by
  intro tw
  rw [decode_eq_x2d_iff, decode_eq_d2x_iff, and_opMask_eq_zero_iff, and_opMask_eq_mask_iff]
  exact ⟨Iff.rfl, Iff.rfl, BitVec.eq_zero_or_eq_one _⟩

/-- Settles O1: each of the four words is evaluated. -/
theorem decodesWordsOfTheSpec : Obligations.DecodesWordsOfTheSpec :=
  ⟨by decide, by decide, by decide, by decide⟩

/-- Settles O2: the slices by where each port stands in the word, the operand fields by the decoder on a setting. -/
theorem decodeCutsFieldsFromPorts : Obligations.DecodeCutsFieldsFromPorts := by
  intro p
  exact ⟨⟨twOp_word p, word_extract_xIn p (i := 64) (by decide), word_extract_xIn p (i := 0) (by decide),
    twD_word p⟩, decode_word_x2d, decode_word_d2x⟩

/-- Settles O5: a number of at most `nbits` bits is unchanged as a table word, so the width check decides. -/
theorem tableWordDecodesIffTransactionWord : Obligations.TableWordDecodesIffTransactionWord :=
  fun _ _ hn => ⟨decodeTableWord_of_lt hn, decodeTableWord_of_ge⟩

end Sys2Proof.Settled

/-! ## The sub-blocks of the datapath (40_datapath_blocks.md R83 to R95) -/

namespace Sys2Proof.Machine

/-! ### exponent_normalizer -/

/-- The shift amount places the highest set bit of a nonzero word (R84). -/
theorem normalize_brackets {v : BitVec 64} (h : v ≠ 0#64) :
    2 ^ (63 - (normalize v).1) ≤ v.toNat ∧ v.toNat < 2 ^ (63 - (normalize v).1 + 1) := by
  obtain ⟨hle, hF, hlo⟩ := normalize_spec h
  have hup := (normalize v).2.isLt
  rw [hF] at hlo hup
  generalize (normalize v).1 = nz at *
  have hpos : 0 < 2 ^ nz := by positivity
  have hsplit : 2 ^ (63 - nz) * 2 ^ nz = 2 ^ 63 := by rw [← pow_add, Nat.sub_add_cancel hle]
  refine ⟨Nat.le_of_mul_le_mul_right (hsplit ▸ hlo) hpos, Nat.lt_of_mul_lt_mul_right (a := 2 ^ nz) ?_⟩
  rw [pow_succ', Nat.mul_assoc, hsplit]
  omega

/-- The highest set bit of a word between two powers of two. -/
theorem getLsbD_of_brackets {n k : Nat} {v : BitVec n} (hlo : 2 ^ k ≤ v.toNat) (hup : v.toNat < 2 ^ (k + 1)) :
    v.getLsbD k = true ∧ ∀ i, k < i → v.getLsbD i = false := by
  constructor
  · have hone : v.toNat / 2 ^ k = 1 := Nat.div_eq_of_lt_le (by omega) (by rw [pow_succ'] at hup; omega)
    rw [getLsbD_iff_mod, hone]
  · intro i hi
    exact Nat.testBit_lt_two_pow (hup.trans_le (Nat.pow_le_pow_right (by decide) hi))

theorem x2dExp_eq (exp15 : BitVec 15) (fr : BitVec 64) :
    x2dExp exp15 fr = (exp15.toNat : ℤ) + 1023 - 16383 - (normalize fr).1 := rfl

/-- The working exponent of the finite path (R85). -/
theorem x2dExp_range {exp15 : BitVec 15} {fr : BitVec 64} (h : exp15 ≠ 0x7FFF#15) (hfr : fr ≠ 0#64) :
    -15423 ≤ x2dExp exp15 fr ∧ x2dExp exp15 fr ≤ 17406 := by
  obtain ⟨hnz, -, -⟩ := normalize_spec hfr
  have hmax : exp15.toNat ≠ 32767 := fun hc => h (BitVec.eq_of_toNat_eq hc)
  rw [x2dExp_eq]
  generalize (normalize fr).1 = nz at *
  omega

/-! ### significand_rounder -/

/-- The rounder answers zero up to and including half of `2^sh` (R88, R90). -/
theorem rneShift_eq_zero_iff {F sh : Nat} (h : 1 ≤ sh) : rneShift F sh = 0 ↔ 2 * F ≤ 2 ^ sh := by
  constructor
  · intro hq
    obtain ⟨-, h2, -, -⟩ := rneShift_spec F h
    rw [hq] at h2
    omega
  · exact fun hF => rneShift_unique h (by omega) (by omega) fun _ => rfl

/-- A shift by 65 or more takes a 64-bit word to zero (R88, 92_eei_decisions.md D7). -/
theorem rneShift_of_wide {F sh : Nat} (hF : F < 2 ^ 64) (hsh : 65 ≤ sh) : rneShift F sh = 0 := by
  have hwide : 2 ^ 65 ≤ 2 ^ sh := Nat.pow_le_pow_right (by decide) hsh
  exact (rneShift_eq_zero_iff (by omega)).2 (by omega)

/-- A shift by 64 compares a 64-bit word with `2^63` (R88, 92_eei_decisions.md D7). -/
theorem rneShift_sixtyFour {F : Nat} (hF : F < 2 ^ 64) : rneShift F 64 = if 2 ^ 63 < F then 1 else 0 := by
  have hle : rneShift F 64 ≤ 1 := rneShift_le (by decide) (by omega)
  have hzero := rneShift_eq_zero_iff (F := F) (show 1 ≤ 64 by decide)
  split <;> omega

/-- `rneShift_spec` as a distance between integers (R88). -/
theorem rneShift_dist (F : Nat) {sh : Nat} (h : 1 ≤ sh) :
    |(F : ℤ) - (rneShift F sh : ℤ) * 2 ^ sh| ≤ 2 ^ (sh - 1) ∧
      (|(F : ℤ) - (rneShift F sh : ℤ) * 2 ^ sh| = 2 ^ (sh - 1) → rneShift F sh % 2 = 0) := by
  obtain ⟨k, rfl⟩ : ∃ k, sh = k + 1 := ⟨sh - 1, by omega⟩
  obtain ⟨h1, h2, h3, h4⟩ := rneShift_spec F h
  have hcast : (rneShift F (k + 1) : ℤ) * 2 ^ (k + 1) = (rneShift F (k + 1) * 2 ^ (k + 1) : Nat) := by push_cast; rfl
  have hhalf : (2 : ℤ) ^ k = (2 ^ k : Nat) := by push_cast; rfl
  have hdouble : 2 ^ (k + 1) = 2 * 2 ^ k := pow_succ' 2 k
  rw [hcast, Nat.add_sub_cancel, hhalf]
  generalize rneShift F (k + 1) * 2 ^ (k + 1) = kept at *
  rw [hdouble] at h1 h2 h3 h4
  generalize 2 ^ k = half at *
  rcases abs_cases ((F : ℤ) - (kept : Nat)) with ⟨habs, -⟩ | ⟨habs, -⟩ <;> rw [habs] <;> omega

/-- Whether more than half a unit is dropped, or exactly half, in terms of the guard bit and the bits below it. -/
theorem mod_compare_half_iff (F k : Nat) :
    (2 ^ k < F % 2 ^ (k + 1) ↔ F.testBit k = true ∧ F % 2 ^ k ≠ 0) ∧
      (F % 2 ^ (k + 1) = 2 ^ k ↔ F.testBit k = true ∧ F % 2 ^ k = 0) := by
  have hsplit : F % 2 ^ (k + 1) = F % 2 ^ k + 2 ^ k * (F / 2 ^ k % 2) := by rw [pow_succ, Nat.mod_mul]
  have hlt : F % 2 ^ k < 2 ^ k := Nat.mod_lt _ (by positivity)
  rw [Nat.testBit_eq_decide_div_mod_eq, decide_eq_true_iff, hsplit]
  rcases Nat.mod_two_eq_zero_or_one (F / 2 ^ k) with hg | hg <;> rw [hg] <;> omega

/-- Guard and sticky form of the rounder (R89). -/
theorem rneShift_guardSticky (F : Nat) {sh : Nat} (h : 1 ≤ sh) : rneShift F sh =
    F / 2 ^ sh + (if F.testBit (sh - 1) = true ∧ (F % 2 ^ (sh - 1) ≠ 0 ∨ F.testBit sh = true) then 1 else 0) := by
  obtain ⟨k, rfl⟩ : ∃ k, sh = k + 1 := ⟨sh - 1, by omega⟩
  obtain ⟨hgt, htie⟩ := mod_compare_half_iff F k
  have hlsb : F.testBit (k + 1) = true ↔ F / 2 ^ (k + 1) % 2 = 1 := by
    rw [Nat.testBit_eq_decide_div_mod_eq, decide_eq_true_iff]
  simp only [rneShift, Nat.add_sub_cancel, hgt, htie, hlsb]
  congr 2
  by_cases hs : F % 2 ^ k = 0 <;> simp [hs]

section
variable {F : Nat} (hlo : 2 ^ 63 ≤ F) (hup : F < 2 ^ 64)
include hup

/-- The quotient of the subnormal path is at most the smallest normal significand (R90). -/
theorem rneShift_sub_le {sh : Nat} (hsh : 12 ≤ sh) : rneShift F sh ≤ 2 ^ 52 := by
  have hwide : 2 ^ 12 ≤ 2 ^ sh := Nat.pow_le_pow_right (by decide) hsh
  exact rneShift_le (by omega) (by omega)

/-- The carry of the subnormal path happens at its smallest shift only (R90). -/
theorem rneShift_sub_carry_iff {sh : Nat} (hsh : 12 ≤ sh) :
    rneShift F sh = 2 ^ 52 ↔ sh = 12 ∧ 0xFFFFFFFFFFFFF800 ≤ F := by
  rcases hsh.eq_or_lt with rfl | hlt
  · obtain ⟨h1, h2, h3, h4⟩ := rneShift_spec F (show 1 ≤ 12 by decide)
    omega
  · have hwide : 2 ^ 13 ≤ 2 ^ sh := Nat.pow_le_pow_right (by decide) hlt
    have hle : rneShift F sh ≤ 2 ^ 51 := rneShift_le (by omega) (by omega)
    omega

include hlo

/-- The shifts at which a normalized significand rounds to zero (R90, R117). -/
theorem rneShift_normalized_eq_zero_iff {sh : Nat} (hsh : 1 ≤ sh) :
    rneShift F sh = 0 ↔ 65 ≤ sh ∨ (sh = 64 ∧ F = 2 ^ 63) := by
  rw [rneShift_eq_zero_iff hsh]
  rcases lt_trichotomy sh 64 with hlt | rfl | hgt
  · have hnarrow : 2 ^ sh ≤ 2 ^ 63 := Nat.pow_le_pow_right (by decide) (by omega)
    omega
  · omega
  · have hwide : 2 ^ 65 ≤ 2 ^ sh := Nat.pow_le_pow_right (by decide) hgt
    omega

end

theorem roundedMan_eq_mod {q : Nat} (h1 : 2 ^ 52 ≤ q) (h2 : q ≤ 2 ^ 53) : roundedMan q = q % 2 ^ 52 := by
  rw [roundedMan]
  split <;> omega

/-- A carry raises the exponent by one (R91). -/
theorem roundedExp_range (e : ℤ) (q : Nat) : e ≤ roundedExp e q ∧ roundedExp e q ≤ e + 1 := by
  rw [roundedExp]
  split <;> omega

/-! ### Field assembly -/

/-- A double is its sign with its low 63 bits below it (R94). -/
theorem eq_assembleSub {d : DPort} {n : Nat} (h : (dLow d).toNat = n) : d = assembleSub (dSign d) n := by
  refine double_ext (dSign_assembleSub ..).symm (BitVec.eq_of_toNat_eq ?_)
  rw [dLow_assembleSub_toNat _ (h ▸ (dLow d).isLt), h]

/-- On the normal path the low 63 bits are the exponent and the significand added, held at the infinity
pattern from where the overflow test holds (R91, R95). -/
theorem dLow_assembleNorm_toNat_min (sg : BitVec 1) {e : ℤ} {q : Nat} (he : 1 ≤ e) (h1 : 2 ^ 52 ≤ q)
    (h2 : q ≤ 2 ^ 53) :
    (dLow (assembleNorm sg e q)).toNat = min ((e - 1).toNat * 2 ^ 52 + q) 0x7FF0000000000000 := by
  have hover : 2047 ≤ roundedExp e q ↔ 0x7FF0000000000000 ≤ (e - 1).toNat * 2 ^ 52 + q := by
    rw [roundedExp]
    split <;> omega
  by_cases h : 2047 ≤ roundedExp e q
  · rw [assembleNorm_of_overflow h, dLow_packD_infinity, Nat.min_eq_right (hover.1 h)]
    rfl
  · rw [dLow_assembleNorm_toNat sg he h1 h2 h, Nat.min_eq_left (by omega)]

theorem assembleSub_eq_zero_iff (sg : BitVec 1) {q : Nat} (h : q < 2 ^ 63) :
    assembleSub sg q = packD sg 0#11 0#52 ↔ q = 0 := by
  rw [← BitVec.toNat_inj, assembleSub_toNat, packD_toNat, BitVec.toNat_ofNat, BitVec.toNat_ofNat]
  omega

theorem assembleSub_ne_infinity (sg : BitVec 1) {q : Nat} (h : q ≤ 2 ^ 52) :
    assembleSub sg q ≠ packD sg 2047#11 0#52 := by
  rw [ne_eq, ← BitVec.toNat_inj, assembleSub_toNat, packD_toNat, BitVec.toNat_ofNat, BitVec.toNat_ofNat]
  omega

theorem assembleNorm_ne_zero (sg : BitVec 1) {e : ℤ} {q : Nat} (he : 1 ≤ e) (h1 : 2 ^ 52 ≤ q) (h2 : q ≤ 2 ^ 53) :
    assembleNorm sg e q ≠ packD sg 0#11 0#52 := by
  intro hz
  have hlow := dLow_assembleNorm_toNat_min sg he h1 h2
  rw [hz, dLow_packD_toNat, BitVec.toNat_ofNat, BitVec.toNat_ofNat] at hlow
  omega

/-! ### The finite path as a whole -/

section
variable (nan : BitVec 52) (sg : BitVec 1) {exp15 : BitVec 15} {fr : BitVec 64} {nz F : Nat} {e : ℤ}
  (h : exp15 ≠ 0x7FFF#15) (hF : F = fr.toNat * 2 ^ nz) (hlo : 2 ^ 63 ≤ F) (hup : F < 2 ^ 64)
  (he : e = (exp15.toNat : ℤ) + 1023 - 16383 - nz)
include h hF hlo hup he

/-- The low 63 bits of the result on either path (R95). -/
theorem dLow_x2dResult_toNat : (dLow (x2dResult nan sg exp15 fr)).toNat =
    min ((max e 1 - 1).toNat * 2 ^ 52 + rneShift F (11 + (max 0 (1 - e)).toNat)) 0x7FF0000000000000 := by
  rcases le_or_gt e 0 with hsub | hnorm
  · have hq : rneShift F (12 - e).toNat ≤ 2 ^ 52 := rneShift_sub_le hup (by omega)
    rw [(x2dResult_sub nan sg h hF hlo hup he hsub).1, dLow_assembleSub_toNat sg (by omega),
      show (max e 1 - 1).toNat = 0 by omega, show 11 + (max 0 (1 - e)).toNat = (12 - e).toNat by omega]
    omega
  · obtain ⟨h1, h2, -⟩ := rneShift_eleven_spec hlo hup
    rw [(x2dResult_norm nan sg h hF hlo hup he hnorm).1, dLow_assembleNorm_toNat_min sg hnorm h1 h2,
      max_eq_left (by omega : 1 ≤ e), show 11 + (max 0 (1 - e)).toNat = 11 by omega]

/-- On the subnormal path `unf` is the test for zero, and there is no infinity (R83). -/
theorem x2dOvf_x2dUnf_iff_of_sub (hsub : e ≤ 0) :
    (x2dOvf exp15 fr = true ↔ x2dResult nan sg exp15 fr = packD sg 2047#11 0#52) ∧
      (x2dUnf exp15 fr = true ↔ x2dResult nan sg exp15 fr = packD sg 0#11 0#52) := by
  obtain ⟨hres, hpath, -, hquot⟩ := x2dResult_sub nan sg h hF hlo hup he hsub
  have hq : rneShift F (12 - e).toNat ≤ 2 ^ 52 := rneShift_sub_le hup (by omega)
  rw [hres, assembleSub_eq_zero_iff sg (by omega), x2dOvf, x2dUnf, hpath, hquot]
  exact ⟨iff_of_false (by simp) (assembleSub_ne_infinity sg hq), by simp⟩

/-- On the normal path `ovf` is the test for infinity, and there is no zero (R83). -/
theorem x2dOvf_x2dUnf_iff_of_norm (hnorm : 1 ≤ e) :
    (x2dOvf exp15 fr = true ↔ x2dResult nan sg exp15 fr = packD sg 2047#11 0#52) ∧
      (x2dUnf exp15 fr = true ↔ x2dResult nan sg exp15 fr = packD sg 0#11 0#52) := by
  obtain ⟨hres, hpath, hexp, hquot⟩ := x2dResult_norm nan sg h hF hlo hup he hnorm
  obtain ⟨h1, h2, -⟩ := rneShift_eleven_spec hlo hup
  rw [hres, assembleNorm_eq_infinity_iff sg hnorm h1 h2, x2dOvf, x2dUnf, hpath, hexp, hquot]
  exact ⟨by simp, iff_of_false (by simp) (assembleNorm_ne_zero sg hnorm h1 h2)⟩

end

end Sys2Proof.Machine

/-! ## The obligations of 40_datapath_blocks.md -/

namespace Sys2Proof.Settled

open Sys2Proof.Machine

/-- Settles O31: the low 63 bits on either path, below the copied sign. -/
theorem x2dOneFormula : Obligations.X2dOneFormula := by
  rintro sg exp15 fr d s nz F _ e h hF hlo hup he rfl
  have heq := eq_assembleSub (dLow_x2dResult_toNat Config.dNanMant sg h hF hlo hup he)
  rw [dSign_x2dResult] at heq
  exact ⟨_, exec_x2d .., heq⟩

/-- Settles O32: by the split on the working exponent; each path has one of the two tests and never the
other's result. -/
theorem x2dLateConditionsNameTheResult : Obligations.X2dLateConditionsNameTheResult := by
  intro sg exp15 fr d s h hfr
  obtain ⟨nz, F, hF, hlo, hup, -⟩ := exists_normalized hfr
  refine ⟨_, exec_x2d .., ?_⟩
  rcases le_or_gt ((exp15.toNat : ℤ) + 1023 - 16383 - nz) 0 with hsub | hnorm
  · exact x2dOvf_x2dUnf_iff_of_sub Config.dNanMant sg h hF hlo hup rfl hsub
  · exact x2dOvf_x2dUnf_iff_of_norm Config.dNanMant sg h hF hlo hup rfl hnorm

/-- Settles O36: the shifted word reaches `2^63`, so the word lies between the powers of two about bit
`63 - nz`. -/
theorem normalizerPutsHighestBitOnTop : Obligations.NormalizerPutsHighestBitOnTop := by
  intro v hv
  obtain ⟨hle, hF, hlo⟩ := normalize_spec hv
  obtain ⟨hbelow, habove⟩ := normalize_brackets hv
  exact ⟨hle, hF, (getLsbD_of_brackets hlo (normalize v).2.isLt).1, getLsbD_of_brackets hbelow habove⟩

/-- Settles O37: the shift amount is at most 63, and the exponent drops by what the significand gains. -/
theorem normalizationKeepsMagnitude : Obligations.NormalizationKeepsMagnitude := by
  intro sg exp15 fr h hfr
  obtain ⟨hmin, hmax⟩ := x2dExp_range h hfr
  obtain ⟨-, hF, -⟩ := normalize_spec hfr
  refine ⟨hmin, hmax, fun h0 subExp => ?_⟩
  have hscale (e : ℤ) : (2 : ℚ) ^ (e - 12) * 2 ^ (-1074 : ℤ) = 2 ^ (e - 1023) / 2 ^ 63 := by
    rw [← zpow_add₀ two_ne_zero, ← zpow_natCast (2 : ℚ) 63, ← zpow_sub₀ two_ne_zero]
    congr 1
    push_cast
    ring
  rw [xMag_normalized subExp sg h h0 hF (x2dExp_eq exp15 fr), mul_assoc, hscale, mul_div_assoc',
    mul_div_right_comm]

/-- Settles O38: the rounder's distance, and its value for the wide shifts. -/
theorem rounderIsNearestEven : Obligations.RounderIsNearestEven := by
  intro F sh hF hsh
  obtain ⟨hdist, htie⟩ := rneShift_dist F hsh
  refine ⟨hdist, htie, rneShift_of_wide hF, ?_⟩
  rintro rfl
  exact rneShift_sixtyFour hF

/-- Settles O39: the remainder split at the guard bit. -/
theorem rounderGuardStickyForm : Obligations.RounderGuardStickyForm :=
  fun F _ h => rneShift_guardSticky F h

/-- Settles O40: the subnormal path's facts about a shift of at least 12, at the shift `12 - e`. -/
theorem subnormalQuotientBounds : Obligations.SubnormalQuotientBounds := by
  intro F e hlo hup hmin hsub
  have hsh : 12 ≤ (12 - e).toNat := by omega
  refine ⟨hsh, by omega, rneShift_sub_le hup hsh, ?_, ?_⟩
  · rw [rneShift_sub_carry_iff hup hsh]
    omega
  · rw [rneShift_normalized_eq_zero_iff hlo hup (by omega)]
    omega

/-- Settles O41: the rounded significand's bounds, and a carry of at most one. -/
theorem normalQuotientBounds : Obligations.NormalQuotientBounds := by
  intro F e hlo hup hmin hmax
  obtain ⟨h1, h2, hcarry⟩ := rneShift_eleven_spec hlo hup
  obtain ⟨hge, hle⟩ := roundedExp_range e (rneShift F 11)
  exact ⟨h1, h2, hcarry, by omega, by omega, roundedMan_eq_mod h1 h2⟩

end Sys2Proof.Settled

/-! ## `D2X` on the ports: its image, and its inverse `X2D` (41_d2x.md R100 to R109) -/

namespace Sys2Proof.Machine

/-! ### The outputs for a setting of the ports -/

theorem settledOutputs_x2d {p : InPorts} (h : p.op = 0#1) :
    settledOutputs p = x2dOutputs Config.dNanMant (xSign p.xIn) (xExp15 p.xIn) (xFrac p.xIn) := by
  rw [settledOutputs, decode_word_x2d h]
  rfl

theorem settledOutputs_d2x {p : InPorts} (h : p.op = 1#1) :
    settledOutputs p = d2xOutputs (dSign p.dIn) (dExp p.dIn) (dMan p.dIn) := by
  rw [settledOutputs, decode_word_d2x h]
  rfl

/-- `x_out` for the double `d` on `d_in`. -/
def d2xPort (d : DPort) : XPort := d2xResult (dSign d) (dExp d) (dMan d)

/-- `d_out` for the extended operand `x` on `x_in`. -/
def x2dPort (x : XPort) : DPort := x2dResult Config.dNanMant (xSign x) (xExp15 x) (xFrac x)

@[simp] theorem outputsOf_d2xOf_xOut (d : DPort) (x : XPort) : (outputsOf (d2xOf d x)).xOut = d2xPort d := rfl
@[simp] theorem outputsOf_x2dOf_dOut (x : XPort) (d : DPort) : (outputsOf (x2dOf x d)).dOut = x2dPort x := rfl

theorem d2xPort_exactlyEquals (d : DPort) : ExactlyEquals d (d2xPort d) := by
  have h := d2xResult_exactlyEquals (dSign d) (dExp d) (dMan d)
  rwa [packD_fields] at h

theorem x2dPort_roundsTo (x : XPort) : RoundsTo x (x2dPort x) := by
  have h := x2dResult_roundsTo dNanMant_ne_zero (xSign x) (xExp15 x) (xFrac x)
  rwa [packX_fields] at h

/-- A `D2X` transaction drives the sign above the exponent and the fraction of its case (R106). -/
theorem exec_d2x_of_fields {dexp : BitVec 11} {dman : BitVec 52} {exp15 : BitVec 15} {fr : BitVec 64}
    (h : d2xFields dexp dman = (exp15, fr)) (sg : BitVec 1) (x : XPort) (s : State) :
    ∃ o, exec (.d2x sg dexp dman x) s = .next { s with out := o } ∧ o.xOut = sg ++ exp15 ++ fr := by
  refine ⟨_, exec_d2x .., ?_⟩
  rw [d2xOutputs_xOut, d2xResult, h, packX]

/-! ### The image of `D2X` -/

/-- What `D2X` can answer: the zero, the infinity and the NaN pattern, or a normal-class value with its
integer bit set and eleven low zeros (R101 to R105, R108). -/
theorem d2xFields_image (dexp : BitVec 11) (dman : BitVec 52) :
    d2xFields dexp dman = (0#15, 0#64) ∨ d2xFields dexp dman = (0x7FFF#15, 0#64) ∨
      d2xFields dexp dman = (0x7FFF#15, 0xFFFFFFFFFFFFFFFF#64) ∨
      (15309 ≤ (d2xFields dexp dman).1.toNat ∧ (d2xFields dexp dman).1.toNat ≤ 17406 ∧
        2 ^ 63 ≤ (d2xFields dexp dman).2.toNat ∧ (d2xFields dexp dman).2.toNat % 2 ^ 11 = 0) := by
  have he := dexp.isLt
  by_cases h0 : dexp = 0#11
  · subst h0
    by_cases hm : dman = 0#52
    · exact .inl (hm ▸ d2xFields_zero)
    · obtain ⟨hge, hle, hF, hlo, hexp⟩ := d2xSubnormal_spec hm
      have hlow : (d2xSubnormal dman).2.toNat % 2 ^ 11 = 0 := by
        rw [hF]
        exact Nat.mod_eq_zero_of_dvd (Dvd.dvd.mul_left (pow_dvd_pow 2 (by omega)) _)
      rw [d2xFields_subnormal hm]
      exact .inr (.inr (.inr ⟨by omega, by omega, hlo, hlow⟩))
  by_cases h1 : dexp = 2047#11
  · subst h1
    by_cases hm : dman = 0#52
    · exact .inr (.inl (hm ▸ d2xFields_infinity))
    · exact .inr (.inr (.inl (d2xFields_nan hm)))
  · obtain ⟨hexp, hF⟩ := d2xNormal_spec dexp dman
    obtain ⟨hmin, hmax⟩ := bcdD_eq_normal_iff_range.1 (bcdD_eq_normal_iff (m := dman).2 ⟨h1, h0⟩)
    rw [d2xFields_normal dman h0 h1]
    exact .inr (.inr (.inr ⟨by omega, by omega, by omega, by omega⟩))

theorem packX_getLsbD_top (sg : BitVec 1) (e : BitVec 15) (f : BitVec 64) :
    (packX sg e f).getLsbD 63 = f.getLsbD 63 := by
  rw [Bool.eq_iff_iff, getLsbD_iff_mod, getLsbD_iff_mod, packX_toNat]
  omega

/-- Every NaN double of one sign has the same result (R104). -/
theorem d2xPort_of_nan {d : DPort} (h : dClass d = .nan) :
    d2xPort d = packX (dSign d) 0x7FFF#15 0xFFFFFFFFFFFFFFFF#64 := by
  obtain ⟨he, hm⟩ := bcdD_eq_nan_iff.1 h
  rw [d2xPort, d2xResult, he, d2xFields_nan hm]

/-! ### `X2D` undoes `D2X` -/

/-- Every finite double lies below the overflow bound (R18). -/
theorem dMag_lt_overflowBound {d : DPort} {m : ℚ} (h : dMag d = some m) : m < overflowBound := by
  have hf := dExp_ne_of_dMag h
  have hlow := (finite_iff_dLow d).1 hf
  rw [dMag_eq_ulps hf] at h
  obtain rfl := Option.some.inj h
  rw [overflowBound_eq]
  refine mul_lt_mul_of_pos_right ?_ (by positivity)
  have hmax : ulps (2045 * 2 ^ 52 + (2 ^ 53 - 1)) = (2 ^ 53 - 1) * 2 ^ 2045 :=
    ulps_binade 2045 (by decide) (by decide)
  have hle : ulps (dLow d).toNat ≤ (2 ^ 53 - 1) * 2 ^ 2045 := hmax ▸ ulps_strictMono.monotone (by omega)
  have hcast : (ulps (dLow d).toNat : ℚ) ≤ ((2 ^ 53 - 1) * 2 ^ 2045 : Nat) := Nat.cast_le.2 hle
  have hq : ((2 ^ 53 - 1 : Nat) : ℚ) = 2 ^ 53 - 1 := by norm_num
  rw [Nat.cast_mul, hq, Nat.cast_pow, Nat.cast_ofNat, pow_succ _ 2044] at hcast
  have hpos : (0 : ℚ) < 2 ^ 2044 := by positivity
  generalize (2 : ℚ) ^ 2044 = c at *
  linarith

/-- The double nearest to the magnitude of a finite double is of that magnitude (R18). -/
theorem dLow_eq_of_isRneD {m : ℚ} {d d' : DPort} (hd : dMag d = some m) (h : IsRneD m d') : dLow d' = dLow d := by
  rw [IsRneD, if_neg (not_le.2 (dMag_lt_overflowBound hd))] at h
  obtain ⟨m', hm', hnearest⟩ := h
  have hdist : |m - m'| ≤ |m - m| := (hnearest d m hd).1
  rw [sub_self, abs_zero, abs_nonpos_iff, sub_eq_zero] at hdist
  exact dLow_eq_of_dMag_eq hm' (hdist ▸ hd)

/-- What rounds from an exact copy of a double that is no NaN is the double itself (R100, R110). -/
theorem ExactlyEquals.eq_of_roundsTo {d d' : DPort} {x : XPort} (he : ExactlyEquals d x) (hr : RoundsTo x d')
    (hnan : dClass d ≠ .nan) : d' = d := by
  refine double_ext (hr.sign.trans he.sign) ?_
  by_cases hexp : dExp d = 2047#11
  · have hman : dMan d = 0#52 := by
      by_contra hm
      exact hnan (bcdD_eq_nan_iff.2 ⟨hexp, hm⟩)
    have hinf : dClass d' = .infinity := hr.infinity (he.infinity (bcdD_eq_infinity_iff.2 ⟨hexp, hman⟩))
    obtain ⟨hexp', hman'⟩ := bcdD_eq_infinity_iff.1 hinf
    exact BitVec.eq_of_toNat_eq (by rw [dLow_toNat_fields, dLow_toNat_fields, hexp, hman, hexp', hman'])
  · have hmag := dMag_eq_ulps hexp
    exact dLow_eq_of_isRneD hmag (hr.nearest _ _ xSubExp_wf (he.exact _ _ xSubExp_wf hmag))

theorem x2dPort_d2xPort {d : DPort} (h : dClass d ≠ .nan) : x2dPort (d2xPort d) = d :=
  (d2xPort_exactlyEquals d).eq_of_roundsTo (x2dPort_roundsTo _) h

/-- A second pass changes no result of `D2X`, NaNs included (R133). -/
theorem d2xPort_x2dPort_d2xPort (d : DPort) : d2xPort (x2dPort (d2xPort d)) = d2xPort d := by
  by_cases h : dClass d = .nan
  · have he := d2xPort_exactlyEquals d
    have hr := x2dPort_roundsTo (d2xPort d)
    rw [d2xPort_of_nan (hr.nan (he.nan h)), hr.sign, he.sign, d2xPort_of_nan h]
  · rw [x2dPort_d2xPort h]

end Sys2Proof.Machine

/-! ## The obligations of 41_d2x.md -/

namespace Sys2Proof.Settled

open Sys2Proof.Machine

/-- Settles O10: the outputs are those of the selected operand, which the two settings have in common. -/
theorem outputsDependOnSelectedOperandOnly : Obligations.OutputsDependOnSelectedOperandOnly := by
  intro s1 s2 t1 t2 h1 h2 hop
  have hboth (h : settledOutputs t1.inp = settledOutputs t2.inp) :
      ∃ o, step s1 = .next { t1 with out := o } ∧ step s2 = .next { t2 with out := o } :=
    ⟨settledOutputs t1.inp, step_of_present h1, by rw [h]; exact step_of_present h2⟩
  refine ⟨fun h0 hx => hboth ?_, fun h0 hd => hboth ?_⟩
  · rw [settledOutputs_x2d h0, settledOutputs_x2d (hop ▸ h0), hx]
  · rw [settledOutputs_d2x h0, settledOutputs_d2x (hop ▸ h0), hd]

/-- Settles O14: the case of exponent and mantissa 0. -/
theorem d2xZero : Obligations.D2xZero := exec_d2x_of_fields d2xFields_zero

/-- Settles O16: the case of exponent all ones and mantissa 0. -/
theorem d2xInfinity : Obligations.D2xInfinity := exec_d2x_of_fields d2xFields_infinity

/-- Settles O17: the case of exponent all ones and any other mantissa. -/
theorem d2xNaN : Obligations.D2xNaN :=
  fun sg _ x s h => exec_d2x_of_fields (d2xFields_nan h) sg x s

/-- Settles O18: the fraction is the mantissa with the implicit 1 above it, times `2^11`. -/
theorem d2xNormal : Obligations.D2xNormal := by
  intro sg dexp dman x s hmin hmax
  obtain ⟨hne2047, hne0⟩ := bcdD_eq_normal_iff.1 (bcdD_eq_normal_iff_range (m := dman).2 ⟨hmin, hmax⟩)
  obtain ⟨hexp, hF⟩ := d2xNormal_spec dexp dman
  obtain ⟨o, hexec, hout⟩ := exec_d2x_of_fields (d2xFields_normal dman hne0 hne2047) sg x s
  have hm := dman.isLt
  refine ⟨o, (Machine.d2xNormal dexp dman).1, (Machine.d2xNormal dexp dman).2, hexec, hout, hexp, by omega,
    by omega, ?_, ?_, ?_, ?_⟩
  · rw [getLsbD_iff_mod]
    omega
  · exact BitVec.eq_of_toNat_eq (by rw [toNat_extract_eq]; omega)
  · exact BitVec.eq_of_toNat_eq (by rw [toNat_extract_eq, BitVec.toNat_ofNat]; omega)
  · rw [hF]
    push_cast
    ring

/-- Settles O20: the four shapes of a result, and `X2D` as the inverse on non-NaN doubles. -/
theorem d2xImageAndInjectivity : Obligations.D2xImageAndInjectivity := by
  constructor
  · intro d x s
    refine ⟨_, exec_eq .., ?_⟩
    rw [outputsOf_d2xOf_xOut, d2xPort, d2xResult, xClass_packX, xFrac_packX, xExp15_packX, packX_getLsbD_top]
    have himage := d2xFields_image (dExp d) (dMan d)
    generalize d2xFields (dExp d) (dMan d) = r at himage ⊢
    obtain rfl | rfl | rfl | ⟨hmin, hmax, hlo, hlow⟩ := himage
    · decide
    · decide
    · decide
    · have hup := r.2.isLt
      rw [bcdX_eq_normal_iff_range.2 ⟨by omega, by omega⟩, getLsbD_iff_mod]
      refine ⟨.inr (BitVec.eq_of_toNat_eq ?_), by decide, fun _ => ⟨by omega, hmin, hmax⟩, nofun⟩
      rw [toNat_extract_eq, BitVec.toNat_ofNat]
      omega
  · intro d1 d2 x1 x2 s1 s2 o1 o2 hnan1 hnan2 h1 h2 heq
    have hout1 : o1.xOut = d2xPort d1 := congrArg (·.out.xOut) (exec_next h1)
    have hout2 : o2.xOut = d2xPort d2 := congrArg (·.out.xOut) (exec_next h2)
    rw [hout1, hout2] at heq
    calc d1 = x2dPort (d2xPort d1) := (x2dPort_d2xPort hnan1).symm
      _ = x2dPort (d2xPort d2) := by rw [heq]
      _ = d2 := x2dPort_d2xPort hnan2

/-- Settles O43: each operation's result has the operand's sign on every path. -/
theorem signIsCopied : Obligations.SignIsCopied :=
  ⟨fun _ _ _ _ _ => ⟨_, exec_x2d .., dSign_x2dResult ..⟩, fun _ _ _ _ _ => ⟨_, exec_d2x .., xSign_packX ..⟩⟩

/-- Settles O48: an operand that comes back is the result for the double between, and every result of `D2X`
comes back. -/
theorem reverseRoundTripOnlyOnImage : Obligations.ReverseRoundTripOnlyOnImage := by
  intro x d0 x0 s
  refine ⟨_, _, exec_eq .., exec_eq .., ?_⟩
  rw [outputsOf_x2dOf_dOut, outputsOf_d2xOf_xOut]
  constructor
  · intro h
    exact ⟨x2dPort x, _, exec_eq .., h⟩
  · rintro ⟨d, o, hexec, rfl⟩
    have hout : o.xOut = d2xPort d := congrArg (·.out.xOut) (exec_next hexec)
    rw [hout, d2xPort_x2dPort_d2xPort]

end Sys2Proof.Settled

/-! ## `X2D` on its paths, and its order (42_x2d.md R110 to R127) -/

namespace Sys2Proof.Machine

/-! ### The order of the nearest doubles -/

/-- Which of two values is the nearer one is the side of their midpoint. -/
theorem midpoint_of_nearer {v m m' : ℚ} (hlt : m' < m) :
    (|v - m| ≤ |v - m'| → m + m' ≤ 2 * v) ∧ (|v - m'| ≤ |v - m| → 2 * v ≤ m + m') := by
  rw [← sq_le_sq, ← sq_le_sq]
  constructor <;> intro h <;> nlinarith

/-- Nothing rounds above the infinity pattern (R18). -/
theorem IsRneD.dLow_le_infinity {v : ℚ} {d : DPort} (h : IsRneD v d) : (dLow d).toNat ≤ 0x7FF0000000000000 := by
  rw [IsRneD] at h
  split at h
  · rw [h]
    exact le_rfl
  · obtain ⟨m, hm, -⟩ := h
    exact ((finite_iff_dLow d).1 (dExp_ne_of_dMag hm)).le

/-- A larger value never rounds to a smaller double (R124): were the two doubles the other way round, neither
value could be on the far side of their midpoint, so the values would be equal. -/
theorem IsRneD.dLow_mono {v w : ℚ} {d d' : DPort} (hvw : v ≤ w) (h : IsRneD v d) (h' : IsRneD w d') :
    (dLow d).toNat ≤ (dLow d').toNat := by
  by_cases hw : overflowBound ≤ w
  · rw [IsRneD, if_pos hw] at h'
    rw [h']
    exact h.dLow_le_infinity
  by_contra hgt
  obtain ⟨m, hm, hnear⟩ := (if_neg (mt hvw.trans' hw)).mp h
  obtain ⟨m', hm', hnear'⟩ := (if_neg hw).mp h'
  have hlt : m' < m := dMag_lt_of_dLow_lt hm' hm (not_le.1 hgt)
  have hv : m + m' ≤ 2 * v := (midpoint_of_nearer hlt).1 (hnear d' m' hm').1
  have hw' : 2 * w ≤ m + m' := (midpoint_of_nearer hlt).2 (hnear' d m hm).1
  obtain rfl : v = w := by linarith
  exact hgt (congrArg BitVec.toNat (Settled.nearestDoubleIsUnique v d d' h h')).le

theorem x2dPort_of_infinity {x : XPort} (h : xClass x = .infinity) : x2dPort x = packD (xSign x) 2047#11 0#52 := by
  obtain ⟨he, hf⟩ := bcdX_eq_infinity_iff.1 h
  rw [x2dPort, he, hf, x2dResult_infinity]

/-! ### Where the subnormal path underflows -/

/-- The bound `2^(-1075)` is half a unit for a magnitude in units of the smallest subnormal (R117). -/
theorem units_le_half_subnormal_iff (V : ℚ) : V * 2 ^ (-1074 : ℤ) ≤ 2 ^ (-1075 : ℤ) ↔ 2 * V ≤ 1 := by
  have hu : (0 : ℚ) < 2 ^ (-1074 : ℤ) := by positivity
  have hhalf : (2 : ℚ) ^ (-1075 : ℤ) = 1 / 2 * 2 ^ (-1074 : ℤ) := by
    rw [show (-1075 : ℤ) = -1 + -1074 by ring, zpow_add₀ two_ne_zero, zpow_neg_one, one_div]
  rw [hhalf, mul_le_mul_iff_left₀ hu, le_div_iff₀' two_pos]

/-- The bound of half a unit as the rounder's test on the unscaled significand (R88, R117). -/
theorem scaled_le_half_iff (F : Nat) {e : ℤ} (h : e ≤ 12) :
    2 * ((F : ℚ) * 2 ^ (e - 12)) ≤ 1 ↔ 2 * F ≤ 2 ^ (12 - e).toNat := by
  obtain ⟨sh, hsh⟩ : ∃ sh : Nat, 12 - e = sh := ⟨(12 - e).toNat, by omega⟩
  rw [← neg_sub, hsh, Int.toNat_natCast, zpow_neg, zpow_natCast, ← mul_assoc,
    mul_inv_le_iff₀ (by positivity), one_mul]
  norm_cast

section
variable (nan : BitVec 52) (sg : BitVec 1) {exp15 : BitVec 15} {fr : BitVec 64} {nz F : Nat} {e : ℤ}
  (h : exp15 ≠ 0x7FFF#15) (hF : F = fr.toNat * 2 ^ nz) (hlo : 2 ^ 63 ≤ F) (hup : F < 2 ^ 64)
  (he : e = (exp15.toNat : ℤ) + 1023 - 16383 - nz) (hsub : e ≤ 0)
include h hF hlo hup he hsub

/-- The subnormal path gives the signed zero where its quotient is zero (R116). -/
theorem x2dResult_eq_zero_iff_quotient :
    x2dResult nan sg exp15 fr = packD sg 0#11 0#52 ↔ rneShift F (12 - e).toNat = 0 := by
  have hq : rneShift F (12 - e).toNat ≤ 2 ^ 52 := rneShift_sub_le hup (by omega)
  rw [(x2dResult_sub nan sg h hF hlo hup he hsub).1, assembleSub_eq_zero_iff sg (by omega)]

/-- Underflow in terms of the working exponent (R117). -/
theorem x2dResult_eq_zero_iff_exp :
    x2dResult nan sg exp15 fr = packD sg 0#11 0#52 ↔ e ≤ -53 ∨ (e = -52 ∧ F = 2 ^ 63) := by
  rw [x2dResult_eq_zero_iff_quotient nan sg h hF hlo hup he hsub, rneShift_normalized_eq_zero_iff hlo hup (by omega)]
  omega

/-- Underflow in terms of the magnitude, for either reading of exponent field 0 (R17, R117). -/
theorem x2dResult_eq_zero_iff_magnitude {subExp : ℤ} {v : ℚ} (hwf : xSubExpWf subExp = true)
    (hv : xMag subExp (packX sg exp15 fr) = some v) :
    x2dResult nan sg exp15 fr = packD sg 0#11 0#52 ↔ v ≤ 2 ^ (-1075 : ℤ) := by
  by_cases h0 : exp15 = 0#15
  · subst h0
    rw [xMag_expZero] at hv
    obtain rfl := Option.some.inj hv
    refine iff_of_true (x2dResult_expZero nan sg fr) ?_
    rw [show subExp = subExp + 1074 + -1074 by ring, zpow_add₀ two_ne_zero, ← mul_assoc, units_le_half_subnormal_iff]
    exact expZero_magnitude_le hwf fr
  · rw [xMag_normalized subExp sg h h0 hF he] at hv
    obtain rfl := Option.some.inj hv
    rw [x2dResult_eq_zero_iff_quotient nan sg h hF hlo hup he hsub, rneShift_eq_zero_iff (by omega),
      units_le_half_subnormal_iff, scaled_le_half_iff F (by omega)]

end

/-! ### The result by stored exponent -/

/-- The exponent field of a finite result of the normal path (R118). -/
theorem dExp_assembleNorm_toNat (sg : BitVec 1) {e : ℤ} {q : Nat} (he : 1 ≤ e) (h : ¬ 2047 ≤ roundedExp e q) :
    ((dExp (assembleNorm sg e q)).toNat : ℤ) = roundedExp e q := by
  obtain ⟨hge, -⟩ := roundedExp_range e q
  rw [assembleNorm_of_finite h, dExp_packD, BitVec.toNat_ofInt]
  omega

/-- The integer bit set: the significand is normalized as it stands (R127). -/
theorem le_toNat_of_integerBit {fr : BitVec 64} (h : fr.getLsbD 63 = true) : 2 ^ 63 ≤ fr.toNat := by
  have hup := fr.isLt
  rw [getLsbD_iff_mod] at h
  omega

section
variable (nan : BitVec 52) (sg : BitVec 1) {exp15 : BitVec 15} {fr : BitVec 64} (hbit : fr.getLsbD 63 = true)
include hbit

theorem x2dResult_sub_of_integerBit (hexp : exp15.toNat ≤ 15360) :
    x2dResult nan sg exp15 fr = assembleSub sg (rneShift fr.toNat (15372 - exp15.toNat)) := by
  have hmax : exp15 ≠ 0x7FFF#15 := by
    rintro rfl
    exact absurd hexp (by decide)
  have hsh : (12 - ((exp15.toNat : ℤ) + 1023 - 16383 - (0 : Nat))).toNat = 15372 - exp15.toNat := by omega
  rw [(x2dResult_sub (nz := 0) nan sg hmax (Nat.mul_one _).symm (le_toNat_of_integerBit hbit) fr.isLt rfl
    (by omega)).1, hsh]

theorem x2dResult_norm_of_integerBit (hmin : 15361 ≤ exp15.toNat) (hmax : exp15.toNat ≤ 32766) :
    x2dResult nan sg exp15 fr = assembleNorm sg ((exp15.toNat : ℤ) - 15360) (rneShift fr.toNat 11) :=
  (x2dResult_norm (nz := 0) nan sg (exp15_of_range (by omega) hmax).1 (Nat.mul_one _).symm
    (le_toNat_of_integerBit hbit) fr.isLt (by omega) (by omega)).1

/-- From where the rounded exponent leaves the field the result is infinity (R119, R127). -/
theorem x2dResult_overflow_of_integerBit (hmax : exp15.toNat ≤ 32766)
    (hov : 17407 ≤ exp15.toNat ∨ (exp15.toNat = 17406 ∧ 0xFFFFFFFFFFFFFC00 ≤ fr.toNat)) :
    x2dResult nan sg exp15 fr = packD sg 2047#11 0#52 := by
  rw [x2dResult_norm_of_integerBit nan sg hbit (by omega) hmax]
  exact assembleNorm_of_overflow
    ((roundedExp_overflow_iff _ (le_toNat_of_integerBit hbit) fr.isLt).2 (by omega))

/-- Below the overflow the exponent field is the rounded exponent (R118, R127). -/
theorem dExp_x2dResult_of_integerBit (hmin : 15361 ≤ exp15.toNat)
    (hfin : exp15.toNat ≤ 17405 ∨ (exp15.toNat = 17406 ∧ fr.toNat < 0xFFFFFFFFFFFFFC00)) :
    ((dExp (x2dResult nan sg exp15 fr)).toNat : ℤ) =
      roundedExp ((exp15.toNat : ℤ) - 15360) (rneShift fr.toNat 11) := by
  rw [x2dResult_norm_of_integerBit nan sg hbit hmin (by omega)]
  exact dExp_assembleNorm_toNat sg (by omega)
    (mt (roundedExp_overflow_iff _ (le_toNat_of_integerBit hbit) fr.isLt).1 (by omega))

end

end Sys2Proof.Machine

/-! ## The obligations of 42_x2d.md -/

namespace Sys2Proof.Settled

open Sys2Proof.Machine

/-- Settles O24: a working exponent this low rounds every significand to zero. -/
theorem x2dExponentFieldZero : Obligations.X2dExponentFieldZero :=
  fun sg fr _ _ hfr => ⟨_, exec_x2d .., x2dResult_expZero _ sg fr, bcdX_eq_subnormal_iff.2 ⟨rfl, hfr⟩⟩

/-- Settles O25: the quotient is at most `2^52`, and it is added into the low 63 bits. -/
theorem x2dSubnormalPath : Obligations.X2dSubnormalPath := by
  intro sg exp15 fr d s nz F e h hF hlo hup he hsub
  have hres := (x2dResult_sub Config.dNanMant sg h hF hlo hup he hsub).1
  have hq : rneShift F (12 - e).toNat ≤ 2 ^ 52 := rneShift_sub_le hup (by omega)
  refine ⟨_, rneShift F (12 - e).toNat, exec_x2d .., rfl, hres, by omega, ?_, ?_, ?_⟩ <;>
    rw [x2dOutputs_dOut, hres]
  · intro h0
    exact (assembleSub_eq_zero_iff sg (by omega)).2 h0
  · intro _ hle
    exact assembleSub_eq_packD sg (by omega)
  · intro hcarry
    rw [hcarry]
    exact assembleSub_carry sg

/-- Settles O26: the zero quotient in terms of `e` and `F` and in terms of the magnitude. -/
theorem x2dUnderflow : Obligations.X2dUnderflow := by
  intro sg exp15 fr d s nz F e h hF hlo hup he hsub
  refine ⟨_, exec_x2d .., x2dResult_eq_zero_iff_exp _ sg h hF hlo hup he hsub, ?_, fun _ _ hwf hv =>
    x2dResult_eq_zero_iff_magnitude _ sg h hF hlo hup he hsub hwf hv⟩
  rintro rfl hgt
  rw [x2dOutputs_dOut, (x2dResult_sub _ sg h hF hlo hup he hsub).1, show (12 - (-52 : ℤ)).toNat = 64 from rfl,
    rneShift_sixtyFour hup, if_pos hgt]
  exact assembleSub_eq_packD sg (by decide)

/-- Settles O27: the quotient in guard and sticky form, then the assembly without overflow. -/
theorem x2dNormalPath : Obligations.X2dNormalPath := by
  intro sg exp15 fr d s nz F e h hF hlo hup he hnorm
  obtain ⟨hmin, -, -⟩ := rneShift_eleven_spec hlo hup
  refine ⟨_, rneShift F 11, roundedMan (rneShift F 11), roundedExp e (rneShift F 11), exec_x2d ..,
    rneShift_guardSticky F (by decide), fun hc => ⟨if_pos hc, if_pos hc⟩, fun hc => ⟨?_, if_neg hc⟩, fun hfin => ?_⟩
  · rw [roundedMan, if_neg hc]
    omega
  · rw [x2dOutputs_dOut, (x2dResult_norm _ sg h hF hlo hup he hnorm).1]
    exact assembleNorm_of_finite (by omega)

/-- Settles O30: the rows below 15361 are the subnormal path, those from there to 32766 the normal path. -/
theorem x2dResultByStoredExponent : Obligations.X2dResultByStoredExponent := by
  intro sg exp15 fr d s hbit
  have hlo := le_toNat_of_integerBit hbit
  refine ⟨_, exec_x2d .., fun h => ?_, fun h => ?_, fun _ h => x2dResult_sub_of_integerBit _ sg hbit h,
    fun hmin hmax => ?_, fun h hle => ?_, fun h hgt => ?_, fun hmin hmax => ?_, fun h => ?_⟩ <;>
    rw [x2dOutputs_dOut]
  · rw [x2dResult_sub_of_integerBit _ sg hbit (by omega), rneShift_of_wide fr.isLt (by omega)]
    rfl
  · rw [x2dResult_sub_of_integerBit _ sg hbit (by omega), h, rneShift_sixtyFour fr.isLt]
    by_cases hhalf : fr.toNat = 2 ^ 63
    · rw [if_neg (by omega), if_pos hhalf]
      rfl
    · rw [if_pos (by omega), if_neg hhalf]
      rfl
  · have hexp := dExp_x2dResult_of_integerBit Config.dNanMant sg hbit hmin (.inl hmax)
    rw [roundedExp] at hexp
    split at hexp <;> omega
  · have hexp := dExp_x2dResult_of_integerBit Config.dNanMant sg hbit (by omega) (.inr ⟨h, by omega⟩)
    obtain ⟨-, -, hcarry⟩ := rneShift_eleven_spec hlo fr.isLt
    rw [roundedExp, if_neg (mt hcarry.1 (by omega))] at hexp
    omega
  · exact x2dResult_overflow_of_integerBit _ sg hbit (by omega) (.inr ⟨h, by omega⟩)
  · exact x2dResult_overflow_of_integerBit _ sg hbit hmax (.inl hmin)
  · obtain rfl : exp15 = 0x7FFF#15 := BitVec.eq_of_toNat_eq h
    have hfr : fr ≠ 0#64 := by
      rintro rfl
      exact absurd hbit (by decide)
    rw [x2dResult_nan _ sg hfr, dClass_packD]
    exact bcdD_eq_nan_iff.2 ⟨rfl, dNanMant_ne_zero⟩

/-- Settles O34: both results are nearest doubles, and the order of the values is kept by rounding. -/
theorem x2dIsMonotone : Obligations.X2dIsMonotone := by
  intro x y d s subExp a hwf _ ha
  have hx : IsRneD a (x2dPort x) := (x2dPort_roundsTo x).nearest subExp a hwf ha
  refine ⟨fun b hb hab => ⟨_, _, exec_eq .., exec_eq .., ?_⟩, fun hinf => ⟨_, _, exec_eq .., exec_eq .., ?_⟩⟩ <;>
    rw [outputsOf_x2dOf_dOut, outputsOf_x2dOf_dOut]
  · exact hx.dLow_mono hab ((x2dPort_roundsTo y).nearest subExp b hwf hb)
  · rw [x2dPort_of_infinity hinf, dLow_packD_infinity]
    exact hx.dLow_le_infinity

/-- Settles O21: the infinity of the path for exponent all ones. -/
theorem x2dInfinity : Obligations.X2dInfinity :=
  fun sg _ _ => ⟨_, exec_x2d .., x2dResult_infinity Config.dNanMant sg⟩

/-- Settles O23: a zero fraction takes the zero path, while the class goes by the exponent alone. -/
theorem x2dZeroFraction : Obligations.X2dZeroFraction :=
  fun sg _ _ _ h => ⟨_, exec_x2d .., x2dResult_zero _ sg h, fun h0 => bcdX_eq_normal_iff.2 ⟨h, h0⟩⟩

end Sys2Proof.Settled

/-! ## Laws across the two operations (43_properties.md R130 to R134) -/

namespace Sys2Proof.Machine

/-! ### NaNs through the two operations -/

/-- An operand that is neither a NaN nor an infinity has a magnitude (R15). -/
theorem exists_xMag {x : XPort} (h : xExp15 x ≠ 0x7FFF#15) (subExp : ℤ) : ∃ v, xMag subExp x = some v := by
  rw [xMag, if_neg h]
  split <;> exact ⟨_, rfl⟩

/-- No magnitude rounds to a NaN (R18). -/
theorem IsRneD.dClass_ne_nan {v : ℚ} {d : DPort} (h : IsRneD v d) : dClass d ≠ .nan := by
  intro hc
  obtain ⟨hexp, hman⟩ := bcdD_eq_nan_iff.1 hc
  have hpos : (dMan d).toNat ≠ 0 := fun h0 => hman (BitVec.eq_of_toNat_eq h0)
  have hle := h.dLow_le_infinity
  rw [dLow_toNat_fields, hexp, BitVec.toNat_ofNat] at hle
  omega

/-- `X2D` answers a NaN for a NaN only (R111, R112, R124). -/
theorem RoundsTo.dClass_eq_nan_iff {x : XPort} {d : DPort} (h : RoundsTo x d) :
    dClass d = .nan ↔ xClass x = .nan := by
  refine ⟨fun hd => ?_, h.nan⟩
  by_cases hexp : xExp15 x = 0x7FFF#15
  · refine bcdX_eq_nan_iff.2 ⟨hexp, fun hfr => ?_⟩
    have hinf := h.infinity (bcdX_eq_infinity_iff.2 ⟨hexp, hfr⟩)
    rw [hd] at hinf
    cases hinf
  · obtain ⟨v, hv⟩ := exists_xMag hexp Config.xSubExp
    exact absurd hd (h.nearest _ v xSubExp_wf hv).dClass_ne_nan

/-- Every NaN operand of one sign has the same result (R112). -/
theorem x2dPort_of_nan {x : XPort} (h : xClass x = .nan) :
    x2dPort x = packD (xSign x) 2047#11 Config.dNanMant := by
  obtain ⟨hexp, hfr⟩ := bcdX_eq_nan_iff.1 h
  rw [x2dPort, hexp, x2dResult_nan _ _ hfr]

/-- A NaN comes back with its sign and the instance's mantissa (R131). -/
theorem x2dPort_d2xPort_of_nan {d : DPort} (h : dClass d = .nan) :
    x2dPort (d2xPort d) = packD (dSign d) 2047#11 Config.dNanMant := by
  have he := d2xPort_exactlyEquals d
  rw [x2dPort_of_nan (he.nan h), he.sign]

/-- A second pass changes no result of `X2D`, NaNs included (R134). -/
theorem x2dPort_d2xPort_x2dPort (x : XPort) : x2dPort (d2xPort (x2dPort x)) = x2dPort x := by
  by_cases h : dClass (x2dPort x) = .nan
  · have hr := x2dPort_roundsTo x
    rw [x2dPort_d2xPort_of_nan h, hr.sign, x2dPort_of_nan (hr.dClass_eq_nan_iff.1 h)]
  · exact x2dPort_d2xPort h

/-- With sign and exponent kept, a double is unchanged exactly when its mantissa is. -/
theorem packD_eq_self_iff {d : DPort} {e : BitVec 11} (he : dExp d = e) (m : BitVec 52) :
    packD (dSign d) e m = d ↔ dMan d = m := by
  constructor
  · intro h
    rw [← h, dMan_packD]
  · rintro rfl
    rw [← he, packD_fields]

/-! ### The sign bit, flipped -/

theorem packX_xor_signBit (sg : BitVec 1) (e : BitVec 15) (f : BitVec 64) :
    packX sg e f ^^^ BitVec.ofNat 80 (2 ^ 79) = packX (sg ^^^ 1#1) e f := by
  have hbit : BitVec.ofNat 80 (2 ^ 79) = 1#1 ++ 0#15 ++ 0#64 := by decide
  rw [packX, packX, hbit, BitVec.xor_append, BitVec.xor_append, BitVec.xor_zero, BitVec.xor_zero]

theorem packD_xor_signBit (sg : BitVec 1) (e : BitVec 11) (m : BitVec 52) :
    packD sg e m ^^^ BitVec.ofNat 64 (2 ^ 63) = packD (sg ^^^ 1#1) e m := by
  have hbit : BitVec.ofNat 64 (2 ^ 63) = 1#1 ++ 0#11 ++ 0#52 := by decide
  rw [packD, packD, hbit, BitVec.xor_append, BitVec.xor_append, BitVec.xor_zero, BitVec.xor_zero]

theorem assembleSub_xor_signBit (sg : BitVec 1) (q : Nat) :
    assembleSub sg q ^^^ BitVec.ofNat 64 (2 ^ 63) = assembleSub (sg ^^^ 1#1) q := by
  have hbit : BitVec.ofNat 64 (2 ^ 63) = 1#1 ++ 0#63 := by decide
  rw [assembleSub, assembleSub, hbit, BitVec.xor_append, BitVec.xor_zero]

theorem assembleNorm_xor_signBit (sg : BitVec 1) (e : ℤ) (q : Nat) :
    assembleNorm sg e q ^^^ BitVec.ofNat 64 (2 ^ 63) = assembleNorm (sg ^^^ 1#1) e q := by
  by_cases h : 2047 ≤ roundedExp e q
  · rw [assembleNorm_of_overflow h, assembleNorm_of_overflow h, packD_xor_signBit]
  · rw [assembleNorm_of_finite h, assembleNorm_of_finite h, packD_xor_signBit]

/-- The result of `X2D` follows the sign on each path (R132). -/
theorem x2dResult_xor_signBit (nan : BitVec 52) (sg : BitVec 1) (exp15 : BitVec 15) (fr : BitVec 64) :
    x2dResult nan sg exp15 fr ^^^ BitVec.ofNat 64 (2 ^ 63) = x2dResult nan (sg ^^^ 1#1) exp15 fr := by
  unfold x2dResult
  split
  · split <;> exact packD_xor_signBit ..
  · exact packD_xor_signBit ..
  · exact assembleSub_xor_signBit ..
  · exact assembleNorm_xor_signBit ..

/-- The result of `D2X` has the sign above fields that do not depend on it (R106, R132). -/
theorem d2xResult_xor_signBit (sg : BitVec 1) (dexp : BitVec 11) (dman : BitVec 52) :
    d2xResult sg dexp dman ^^^ BitVec.ofNat 80 (2 ^ 79) = d2xResult (sg ^^^ 1#1) dexp dman :=
  packX_xor_signBit ..

/-- Flipping the sign bit of an extended operand changes no other field of the transaction (R62). -/
theorem x2dOf_xor_signBit (x : XPort) (d : DPort) :
    x2dOf (x ^^^ BitVec.ofNat 80 (2 ^ 79)) d = .x2d (xSign x ^^^ 1#1) (xExp15 x) (xFrac x) d := by
  rw [← x2dOf_packX, ← packX_xor_signBit, packX_fields]

/-- Flipping the sign bit of a double operand changes no other field of the transaction (R63). -/
theorem d2xOf_xor_signBit (d : DPort) (x : XPort) :
    d2xOf (d ^^^ BitVec.ofNat 64 (2 ^ 63)) x = .d2x (dSign d ^^^ 1#1) (dExp d) (dMan d) x := by
  rw [← d2xOf_packD, ← packD_xor_signBit, packD_fields]

end Sys2Proof.Machine

/-! ## The obligations of 43_properties.md -/

namespace Sys2Proof.Settled

open Sys2Proof.Machine

/-- Settles O46: a result of `D2X` equals its double exactly, so that double is what it rounds to; a NaN stays
a NaN through both contracts. -/
theorem roundTripDouble : Obligations.RoundTripDouble := by
  intro d x0 d0 s
  refine ⟨_, _, exec_eq .., exec_eq .., ?_⟩
  rw [outputsOf_d2xOf_xOut, outputsOf_x2dOf_dOut]
  exact ⟨x2dPort_d2xPort, fun hnan => (x2dPort_roundsTo _).nan ((d2xPort_exactlyEquals d).nan hnan)⟩

/-- Settles O44: each path of either operation puts the sign above bits that do not depend on it. -/
theorem signSymmetry : Obligations.SignSymmetry := by
  constructor
  · intro x d s
    rw [x2dOf_xor_signBit]
    exact ⟨_, _, exec_x2d .., exec_x2d .., (x2dResult_xor_signBit ..).symm, rfl, rfl⟩
  · intro d x s
    rw [d2xOf_xor_signBit]
    exact ⟨_, _, exec_d2x .., exec_d2x .., (d2xResult_xor_signBit ..).symm, rfl, rfl⟩

/-- Settles O47: the mantissa is the model's open constant, which is not zero. -/
theorem roundTripNaN : Obligations.RoundTripNaN := by
  refine ⟨Config.dNanMant, dNanMant_ne_zero, fun d x0 d0 s hnan => ⟨_, _, exec_eq .., exec_eq .., ?_⟩⟩
  rw [outputsOf_d2xOf_xOut, outputsOf_x2dOf_dOut, x2dPort_d2xPort_of_nan hnan]
  exact ⟨rfl, packD_eq_self_iff (bcdD_eq_nan_iff.1 hnan).1 _⟩

/-- Settles O49: the first result is a double, which comes back as itself or, being a NaN of `X2D`, as the same
NaN. -/
theorem stableAfterOnePass : Obligations.StableAfterOnePass := by
  intro x d0 x1 d2 s
  refine ⟨_, _, _, exec_eq .., exec_eq .., exec_eq .., ?_⟩
  rw [outputsOf_x2dOf_dOut, outputsOf_x2dOf_dOut, outputsOf_d2xOf_xOut]
  exact x2dPort_d2xPort_x2dPort x

end Sys2Proof.Settled

/-! ## The obligation of 60_exceptions.md -/

namespace Sys2Proof.Settled

open Sys2Proof.Machine

/-- Settles O8: by the equations of `exec` and of `step`, which answers the state itself once the run is over. -/
theorem noTransactionFails : Obligations.NoTransactionFails := by
  refine ⟨fun i s => ⟨_, exec_eq i s⟩, fun s t ht => ⟨_, step_of_present ht⟩, fun s => ?_⟩
  obtain ⟨_, -, hstep⟩ | ⟨-, hstep⟩ := step_cases s
  · exact ⟨_, hstep⟩
  · exact ⟨_, hstep⟩

end Sys2Proof.Settled

/-! ## The length of a run (70_reset_and_hazards.md R169) -/

namespace Sys2Proof.Machine

/-- One pair is observed for each transaction presented. -/
theorem observe_length (k : Nat) (s : State) : (observe k s).length = (s.presented k).length := by
  rw [observe_eq_map, List.length_map]

/-- With nothing after them, the listed transactions are all that is presented. -/
theorem presented_of_ended {s : State} (h : s.later = .ended) (k : Nat) :
    s.presented k = s.pending.take k := by
  simp only [State.presented, h, List.append_nil]

/-- An endless run makes up what the list falls short of `k`. -/
theorem presented_length_of_endless {s : State} {n : Nat} (h : s.later = .endless n) (k : Nat) :
    (s.presented k).length = k := by
  simp only [State.presented, h, List.length_append, List.length_take, List.length_map, List.length_range]
  omega

end Sys2Proof.Machine

/-! ## The obligation of 70_reset_and_hazards.md -/

namespace Sys2Proof.Settled

open Sys2Proof.Machine

/-- Settles O56: as many pairs are observed as transactions are presented, the listed ones at most when nothing
follows them, as many as one looks for when the run is endless. -/
theorem runIsFiniteOrInfinite : Obligations.RunIsFiniteOrInfinite := by
  refine fun s => ⟨fun hended k => ?_, fun n hendless k => ?_⟩
  · rw [observe_length, presented_of_ended hended, List.length_take]
  · rw [observe_length, presented_length_of_endless hendless]

end Sys2Proof.Settled
